-- ==== Sys2Proof/Word.lean ====
section
/-!
DEFINITION. Words: the widths the spec gives (00_scope.md R5, R6).
Every value is unsigned; there is no signed quantity and no sign extension anywhere (R6).
-/

namespace Sys2Proof

/-- A byte: 8 bits (R5 `BYTE`, `REG_WIDTH`, `TIMER_WIDTH`). -/
abbrev Byte := BitVec 8

/-- The opcode word, `pc`, `I` and a stack slot: 16 bits (R5 `PC_WIDTH`, `I_WIDTH`). -/
abbrev Word16 := BitVec 16

/-- The 12-bit address `NNN` of an instruction (30_encoding.md R65). -/
abbrev Addr12 := BitVec 12

/-- The index of a variable register, 0 to 15 (10_state.md R12). -/
abbrev Reg := Fin 16

/-- The index of a key, 0 to 15 (10_state.md R26). -/
abbrev KeyIndex := Fin 16

/-- `VF`, the register that doubles as the flag (R5 `FLAG_REG`, 10_state.md R13). -/
abbrev VF : Reg := 15

/-- `MEM_SIZE`: the bytes of memory (R5, 20_memory.md R41). -/
abbrev memSize : Nat := 4096

/-- `STACK_DEPTH`: the slots of the call stack (R5, 10_state.md R21). -/
abbrev stackDepth : Nat := 16

/-- `DISP_ROWS` (R5, 10_state.md R25). -/
abbrev dispRows : Nat := 32

/-- `DISP_COLS` (R5, 10_state.md R25). -/
abbrev dispCols : Nat := 64

@[simp] theorem memSize_eq : memSize = 4096 := rfl

@[simp] theorem stackDepth_eq : stackDepth = 16 := rfl

/-- A natural number as an index 0 to 15: its low nibble. -/
def index16 (n : Nat) : Fin 16 := ⟨n % 16, Nat.mod_lt _ (by decide)⟩

@[simp] theorem index16_val (n : Nat) : (index16 n).val = n % 16 := rfl

end Sys2Proof
end

