-- ==== Sys2Proof/Config.lean ====
section
/-!
DEFINITION. The configuration: the rows marked *parameter* of 00_scope.md R5, and the one free value
of the machine, the random byte of a STEP (10_state.md R31).
-/

namespace Sys2Proof

/-- Which register the two shifts read (R5 `SHIFT_SOURCE`, 43_alu.md R102). -/
inductive ShiftSource where
  /-- The shifts read `V[X]`, the alternative a model may be configured to. -/
  | x
  /-- The shifts read `V[Y]`, the decision of the spec (92_eei_decisions.md D5). -/
  | y
  deriving DecidableEq, Repr

/-- The parameters of the machine (00_scope.md R5, rows marked *parameter*). -/
structure Config where
  /-- `PROGRAM_START`: the reset value of `pc`, where the host loads a program. -/
  programStart : Nat
  /-- `FONT_BASE`: the address of the glyph of digit 0. -/
  fontBase : Nat
  /-- `GLYPH_HEIGHT`: the bytes of one glyph. -/
  glyphHeight : Nat
  /-- `FONT_DATA`: the font table in memory after RESET (10_state.md R33). -/
  fontData : List Byte
  /-- `SHIFT_SOURCE`. -/
  shiftSource : ShiftSource
  deriving DecidableEq, Repr

/-- The constraints on the parameters (00_scope.md R5, last paragraph), and one glyph for each of the 16
digits (10_state.md R33). -/
def Config.valid (c : Config) : Bool :=
  decide (c.programStart + 1 < memSize) &&
  decide (c.fontBase + 16 * c.glyphHeight ≤ memSize) &&
  decide (c.fontBase + 255 * c.glyphHeight < 2 ^ 16) &&
  decide (c.fontData.length = 16 * c.glyphHeight)

/-- Glyphs 0 to 7 (10_state.md R33). -/
def glyphs0to7 : List Byte :=
  [0xF0, 0x90, 0x90, 0x90, 0xF0,
   0x20, 0x60, 0x20, 0x20, 0x70,
   0xF0, 0x10, 0xF0, 0x80, 0xF0,
   0xF0, 0x10, 0xF0, 0x10, 0xF0,
   0x90, 0x90, 0xF0, 0x10, 0x10,
   0xF0, 0x80, 0xF0, 0x10, 0xF0,
   0xF0, 0x80, 0xF0, 0x90, 0xF0,
   0xF0, 0x10, 0x20, 0x40, 0x40]

/-- Glyphs 8 to F (10_state.md R33). -/
def glyphs8toF : List Byte :=
  [0xF0, 0x90, 0xF0, 0x90, 0xF0,
   0xF0, 0x90, 0xF0, 0x10, 0xF0,
   0xF0, 0x90, 0xF0, 0x90, 0x90,
   0xE0, 0x90, 0xE0, 0x90, 0xE0,
   0xF0, 0x80, 0x80, 0x80, 0xF0,
   0xE0, 0x90, 0x90, 0x90, 0xE0,
   0xF0, 0x80, 0xF0, 0x80, 0xF0,
   0xF0, 0x80, 0xF0, 0x80, 0x80]

/-- The configuration of this machine: the values of 00_scope.md R5, decided in 92_eei_decisions.md D1,
D2 and D5. DESIGN CHOICE of the spec, unsafe (notes/assumptions 5, 6 and 8). -/
def config : Config where
  programStart := 0x200
  fontBase := 0x050
  glyphHeight := 5
  fontData := glyphs0to7 ++ glyphs8toF
  shiftSource := .y

/-- The free value of the machine: the random byte of draw number `n` (10_state.md R31, 44 R108, D16).
It has no body, so nothing can be proved of its values: a statement holds whatever they are. DESIGN
CHOICE, safe (notes/assumptions/1.md). -/
opaque Config.freeRandomByte : Nat → Byte

end Sys2Proof
end

