-- ==== Sys2Proof/Syntax.lean ====
section
/-!
DEFINITION. The instructions: one constructor for each of the 36 rows of spec/opcode_table.json
(30_encoding.md R68). Field names are those of R65: `x`, `y` registers, `nn` an 8-bit value, `nnn` a
12-bit address, `n` a count.
-/

namespace Sys2Proof

/-- An instruction (30_encoding.md R68). The comment on each constructor gives pattern and spelling. -/
inductive Instr where
  /-- `00E0` `CLS`: clear screen. -/
  | cls
  /-- `00EE` `RET`: return from subroutine. -/
  | ret
  /-- `0NNN` `SYS NNN`: the legacy no-op family. -/
  | sys (nnn : Addr12)
  /-- `1NNN` `JP NNN`: jump. -/
  | jp (nnn : Addr12)
  /-- `2NNN` `CALL NNN`: call subroutine. -/
  | call (nnn : Addr12)
  /-- `3XNN` `SE Vx, NN`: skip if equal to an immediate. -/
  | seImm (x : Reg) (nn : Byte)
  /-- `4XNN` `SNE Vx, NN`: skip if not equal to an immediate. -/
  | sneImm (x : Reg) (nn : Byte)
  /-- `5XY0` `SE Vx, Vy`: skip if registers are equal. -/
  | seReg (x y : Reg)
  /-- `6XNN` `LD Vx, NN`: assign an immediate. -/
  | ldImm (x : Reg) (nn : Byte)
  /-- `7XNN` `ADD Vx, NN`: add an immediate. -/
  | addImm (x : Reg) (nn : Byte)
  /-- `8XY0` `LD Vx, Vy`: assign a register. -/
  | ldReg (x y : Reg)
  /-- `8XY1` `OR Vx, Vy`. -/
  | orReg (x y : Reg)
  /-- `8XY2` `AND Vx, Vy`. -/
  | andReg (x y : Reg)
  /-- `8XY3` `XOR Vx, Vy`. -/
  | xorReg (x y : Reg)
  /-- `8XY4` `ADD Vx, Vy`: add with carry out. -/
  | addReg (x y : Reg)
  /-- `8XY5` `SUB Vx, Vy`: subtract. -/
  | subReg (x y : Reg)
  /-- `8XY6` `SHR Vx, Vy`: shift right by one. -/
  | shrReg (x y : Reg)
  /-- `8XY7` `SUBN Vx, Vy`: subtract swapped. -/
  | subnReg (x y : Reg)
  /-- `8XYE` `SHL Vx, Vy`: shift left by one. -/
  | shlReg (x y : Reg)
  /-- `9XY0` `SNE Vx, Vy`: skip if registers differ. -/
  | sneReg (x y : Reg)
  /-- `ANNN` `LD I, NNN`: set the address register. -/
  | ldI (nnn : Addr12)
  /-- `BNNN` `JP V0, NNN`: jump with offset. -/
  | jpV0 (nnn : Addr12)
  /-- `CXNN` `RND Vx, NN`: random-assign. -/
  | rnd (x : Reg) (nn : Byte)
  /-- `DXYN` `DRW Vx, Vy, N`: draw sprite. -/
  | drw (x y : Reg) (n : Fin 16)
  /-- `EX9E` `SKP Vx`: skip if a key is pressed. -/
  | skp (x : Reg)
  /-- `EXA1` `SKNP Vx`: skip if a key is not pressed. -/
  | sknp (x : Reg)
  /-- `FX07` `LD Vx, DT`: read the delay timer. -/
  | ldVxDT (x : Reg)
  /-- `FX0A` `LD Vx, K`: wait for a key press. -/
  | ldVxK (x : Reg)
  /-- `FX15` `LD DT, Vx`: set the delay timer. -/
  | ldDTVx (x : Reg)
  /-- `FX18` `LD ST, Vx`: set the sound timer. -/
  | ldSTVx (x : Reg)
  /-- `FX1E` `ADD I, Vx`: add to the address register. -/
  | addIVx (x : Reg)
  /-- `FX29` `LD F, Vx`: glyph address. -/
  | ldFVx (x : Reg)
  /-- `FX33` `LD B, Vx`: store binary-coded decimal. -/
  | ldBVx (x : Reg)
  /-- `FX55` `LD [I], Vx`: store variable registers. -/
  | storeRegs (x : Reg)
  /-- `FX65` `LD Vx, [I]`: load variable registers. -/
  | loadRegs (x : Reg)
  /-- Any unrecognised word, `NOP w`. -/
  | nop (w : Word16)
  deriving DecidableEq, Repr

end Sys2Proof
end

