-- ==== Sys2Proof/Machine/State.lean ====
section
/-!
DEFINITION. The state of the machine (10_state.md R11), the host's schedule beside it, the reasons a
step stops, and the state after RESET (R35). Plain data throughout.
-/

namespace Sys2Proof.Machine

/-- The bytes of memory that differ from the reset contents, by address: strictly rising addresses below
`memSize`, no entry equal to what the unlisted address reads as (`Memory.wf`). An unlisted address reads
as `resetByte` (notes/assumptions/5.md). -/
abbrev Memory := List Host.Cell

/-- The frame buffer: 32 rows of 64 pixels, `true` for on (10_state.md R25). -/
abbrev Display := Vector (Vector Bool dispCols) dispRows

/-- One event of 00_scope.md R9. The host issues every event; `step` is the STEP. -/
inductive HostEvent where
  /-- STEP: one fetch, decode, dispatch and handler execution (30_encoding.md R61). -/
  | step
  /-- TICK: both timers decrement if nonzero (60_exceptions.md R143). -/
  | tick
  /-- KEY: key `k` becomes pressed or not pressed (60_exceptions.md R146). -/
  | key (k : KeyIndex) (pressed : Bool)
  /-- LOAD: one byte of the program image is written (20_memory.md R52). -/
  | load (addr : Nat) (byte : Byte)
  /-- A read of DISPLAY or SOUND: no state change (10_state.md R32). -/
  | read
  /-- RESET (70_reset_and_hazards.md R160). -/
  | reset
  deriving DecidableEq, Repr

/-- The host as far as the machine depends on it: not state of the spec's (10_state.md R34), but the
model's own record of what the host does next (notes/assumptions/2.md and 3.md). -/
structure HostAgent where
  /-- Has a STEP been issued since the last RESET. It closes the contract of LOAD (20_memory.md R52). -/
  started : Bool
  /-- The events the host issues next, first to come first. Empty: the host issues a STEP. -/
  script : List HostEvent
  deriving DecidableEq, Repr

/-- The state: the twelve entries of 10_state.md R11, then the model's own `draws` and `host`. -/
structure State where
  /-- The memory (R28, 20_memory.md R41). -/
  mem : Memory
  /-- The variable registers `V[0]` to `V[15]` (R12). -/
  V : Vector Byte 16
  /-- The program counter (R16). -/
  pc : Word16
  /-- The address register (R20). -/
  I : Word16
  /-- The call stack's slots (R21). -/
  stack : Vector Word16 stackDepth
  /-- The stack index, the slots in use, 0 to 16 inclusive (R22). -/
  sp : Fin 17
  /-- The delay timer (R24). -/
  DT : Byte
  /-- The sound timer (R24). -/
  ST : Byte
  /-- The display (R25). -/
  disp : Display
  /-- The keypad, `true` for pressed (R26). -/
  keys : Vector Bool 16
  /-- `wait_key`: the core is suspended in an FX0A (R27). -/
  waitKey : Bool
  /-- `wait_reg`: the destination of that FX0A (R27). -/
  waitReg : Reg
  /-- The model's own: how many random bytes have been taken; the next is `Config.freeRandomByte draws`
  (R31, notes/assumptions/1.md). -/
  draws : Nat
  /-- The model's own: the host's schedule (notes/assumptions/2.md). -/
  host : HostAgent
  deriving DecidableEq, Repr

/-- The errors of the machine (60_exceptions.md R130). A fault carries no state: the state stays what it
was before the STEP, and the run is over (R134, R139, notes/assumptions/15.md). -/
inductive Fault where
  /-- StackOverflow, raised by CALL at `sp = 16`; the address of the CALL (R131). Safe. -/
  | stackOverflow (callAddr : Word16)
  /-- StackUnderflow, raised by RET at `sp = 0`; the address of the RET (R132). Safe. -/
  | stackUnderflow (retAddr : Word16)
  /-- OutOfBoundsAccess, raised by the fetch, DRW, LD B, LD [I] and LD Vx,[I]; the lowest out-of-bounds
  address of the access, an unbounded natural number (R133). Safe. -/
  | outOfBoundsAccess (addr : Nat)
  deriving DecidableEq, Repr

/-- Moves and instructions the model gives no meaning. -/
inductive Refusal where
  /-- An instruction without a meaning, raised by an arm of `exec` only; no arm raises it. Safe. -/
  | notModelled (mnemonic : String)
  /-- The host's LOAD outside its contract: an address that is not in `PROGRAM_START`..4095, or a LOAD
  after a STEP. Raised by `loadEvent`. The spec gives the host no such move (20_memory.md R52), so
  nothing is said of a host that makes it. Unsafe against such a host (notes/assumptions/3.md). -/
  | loadOutsideContract (addr : Nat)
  deriving DecidableEq, Repr

/-- The outcome of a step, a meaning or an event. -/
abbrev Result := Host.Outcome State Fault Refusal

/-- The state after RESET (10_state.md R35, 70_reset_and_hazards.md R160): everything zero but `pc`, and
memory with nothing listed, that is, zero but for the font table. The last two fields are the model's own
(DESIGN CHOICE, notes/assumptions/1.md and 2.md). -/
def State.reset : State where
  mem := []
  V := Vector.replicate 16 0
  pc := BitVec.ofNat 16 config.programStart
  I := 0
  stack := Vector.replicate stackDepth 0
  sp := 0
  DT := 0
  ST := 0
  disp := Vector.replicate dispRows (Vector.replicate dispCols false)
  keys := Vector.replicate 16 false
  waitKey := false
  waitReg := 0
  draws := 0
  host := { started := false, script := [] }

end Sys2Proof.Machine
end

