-- ==== Sys2Proof/Machine/Ops.lean ====
section
/-!
DEFINITION. The named operations over memory, registers, stack, display and program counter, and the one
operation that raises an error. Every access of every meaning goes through these.
-/

namespace Sys2Proof.Machine

/-! ## Memory (20_memory.md) -/

/-- What an address reads as after RESET under a configuration: the font table, else 0 (10_state.md R35). -/
def resetByteOf (c : Config) (a : Nat) : Byte :=
  if c.fontBase ≤ a then (c.fontData[a - c.fontBase]?).getD 0 else 0

/-- What an unlisted address reads as: the reset contents (10_state.md R35, notes/assumptions/5.md). -/
def resetByte (a : Nat) : Byte := resetByteOf config a

/-- `mem[a]`, for an address in bounds (00_scope.md R7 `MemRead`). -/
def Memory.read : Memory → Nat → Byte
  | [], a => resetByte a
  | (a', b) :: m, a => if a = a' then b else Memory.read m a

/-- `mem[a] <- b`, for an address in bounds (00_scope.md R7 `MemWrite`), keeping the canonical form. -/
def Memory.write : Memory → Nat → Byte → Memory
  | [], a, b => if b = resetByte a then [] else [(a, b)]
  | (a', b') :: m, a, b =>
    if a < a' then (if b = resetByte a then (a', b') :: m else (a, b) :: (a', b') :: m)
    else if a = a' then (if b = resetByte a then m else (a, b) :: m)
    else (a', b') :: Memory.write m a b

/-- The `n` bytes at `a`, `a + 1`, … in ascending order (20_memory.md R46). -/
def Memory.readBytes (m : Memory) (a : Nat) : Nat → List Byte
  | 0 => []
  | n + 1 => m.read a :: Memory.readBytes m (a + 1) n

/-- Store bytes at `a`, `a + 1`, … in ascending order (20_memory.md R46). -/
def Memory.writeBytes (m : Memory) (a : Nat) : List Byte → Memory
  | [] => m
  | b :: bs => Memory.writeBytes (m.write a b) (a + 1) bs

/-- The canonical form from address `lo` upward. -/
def Memory.wfFrom (lo : Nat) : Memory → Bool
  | [] => true
  | (a, b) :: m => decide (lo ≤ a) && decide (a < memSize) && decide (b ≠ resetByte a) &&
      Memory.wfFrom (a + 1) m

/-- The canonical form of memory: strictly rising addresses in the array, no entry that says what an
unlisted address reads as anyway. -/
def Memory.wf (m : Memory) : Bool := Memory.wfFrom 0 m

/-- The lowest out-of-bounds address of an access to the `len` bytes at `base`, if there is one
(20_memory.md R43, R44; 60_exceptions.md R133). `base` is an unbounded natural number. -/
def firstOutOfBounds (base len : Nat) : Option Nat :=
  if len = 0 ∨ base + len ≤ memSize then none else some (max base memSize)

/-! ## Raising an error -/

/-- Raise an error (00_scope.md R7 `raise`). This is the whole of taking an exception on this machine:
the STEP ends with the error and its info value, and nothing is saved, vectored or changed
(60_exceptions.md R134, R135). There is no return from an exception (R139). -/
def raise (f : Fault) : Result := .fault f

/-- Go on only if the `len` bytes at `base` are in bounds, else raise OutOfBoundsAccess: every check
comes before the first write (20_memory.md R44). -/
def withBounds (base len : Nat) (go : Result) : Result :=
  match firstOutOfBounds base len with
  | some a => raise (.outOfBoundsAccess a)
  | none => go

/-! ## Updates of one piece of state -/

/-- `pc <- a`. -/
def State.setPc (s : State) (a : Word16) : State := { s with pc := a }

/-- `I <- a`. -/
def State.setI (s : State) (a : Word16) : State := { s with I := a }

/-- `DT <- b`. -/
def State.setDT (s : State) (b : Byte) : State := { s with DT := b }

/-- `ST <- b`. -/
def State.setST (s : State) (b : Byte) : State := { s with ST := b }

/-- Replace the memory. -/
def State.setMem (s : State) (m : Memory) : State := { s with mem := m }

/-- Replace the display. -/
def State.setDisp (s : State) (d : Display) : State := { s with disp := d }

/-- `keys[k] <- b` (60_exceptions.md R146). -/
def State.setKey (s : State) (k : KeyIndex) (b : Bool) : State :=
  { s with keys := s.keys.set k.val b k.isLt }

/-- `wait_key <- 1; wait_reg <- x` (46_keypad.md R114). -/
def State.setWait (s : State) (x : Reg) : State := { s with waitKey := true, waitReg := x }

/-- `wait_key <- 0` (46_keypad.md R115). -/
def State.clearWait (s : State) : State := { s with waitKey := false }

/-- One more random byte has been taken (10_state.md R31). -/
def State.takeDraw (s : State) : State := { s with draws := s.draws + 1 }

/-- Replace the model's record of the host. -/
def State.setHost (s : State) (h : HostAgent) : State := { s with host := h }

/-! ## Variable registers (10_state.md R12) -/

/-- `V[x]`. -/
def State.reg (s : State) (x : Reg) : Byte := s.V[x.val]'x.isLt

/-- `V[x] <- b`. No register is hardwired (R12). -/
def State.setReg (s : State) (x : Reg) (b : Byte) : State := { s with V := s.V.set x.val b x.isLt }

/-- `V[r] <- b0; V[r+1] <- b1; …` for the bytes given (48_index_memory.md R124). -/
def State.setRegsFrom (s : State) (r : Nat) : List Byte → State
  | [] => s
  | b :: bs => State.setRegsFrom (s.setReg (index16 r) b) (r + 1) bs

/-- `V[r]`, `V[r+1]`, …, `n` of them (48_index_memory.md R123). -/
def State.regsFrom (s : State) (r : Nat) : Nat → List Byte
  | 0 => []
  | n + 1 => s.reg (index16 r) :: State.regsFrom s (r + 1) n

/-! ## Program counter (10_state.md R16, R17) -/

/-- `next`: `pc <- pc + 2`, the default post-increment (00_scope.md R7). No wrap arises in a STEP
(10_state.md R18, notes/assumptions/25.md). -/
def State.next (s : State) : State := s.setPc (s.pc + 2)

/-- `skip`: `pc <- pc + 4` (00_scope.md R7). -/
def State.skip (s : State) : State := s.setPc (s.pc + 4)

/-- `if c: skip else: next` (41_skips.md R92). -/
def State.skipIf (c : Bool) (s : State) : State := if c then s.skip else s.next

/-! ## Call stack (10_state.md R21, R22) -/

/-- `stack[k]`. -/
def State.slot (s : State) (k : Fin 16) : Word16 := s.stack[k.val]'k.isLt

/-- The next free slot, meant for `sp < 16` (R22). -/
def State.freeSlot (s : State) : Fin 16 := index16 s.sp.val

/-- The slot last pushed, meant for `sp > 0` (R22). -/
def State.topSlot (s : State) : Fin 16 := index16 (s.sp.val - 1)

/-- A value of the stack index, 0 to 16 (R22). -/
def stackIndex (n : Nat) : Fin 17 := ⟨n % 17, Nat.mod_lt _ (by decide)⟩

/-- `stack[sp] <- a; sp <- sp + 1`, for `sp < 16` (40_screen_and_flow.md R86). -/
def State.push (s : State) (a : Word16) : State :=
  { s with stack := s.stack.set s.freeSlot.val a s.freeSlot.isLt, sp := stackIndex (s.sp.val + 1) }

/-- `sp <- sp - 1`, for `sp > 0`; the slot keeps its value (R82, 10_state.md R21). -/
def State.pop (s : State) : State := { s with sp := stackIndex (s.sp.val - 1) }

/-! ## Display (10_state.md R25) -/

/-- A row number, wrapped at the bottom edge (45_draw.md R109). -/
def wrapRow (n : Nat) : Fin 32 := ⟨n % 32, Nat.mod_lt _ (by decide)⟩

/-- A column number, wrapped at the right edge (45_draw.md R109). -/
def wrapCol (n : Nat) : Fin 64 := ⟨n % 64, Nat.mod_lt _ (by decide)⟩

/-- `disp[row][col]`. -/
def Display.pixel (d : Display) (row : Fin 32) (col : Fin 64) : Bool :=
  (d[row.val]'row.isLt)[col.val]'col.isLt

/-- `disp[row][col] <- disp[row][col] ^ 1` (45_draw.md R109). -/
def Display.flip (d : Display) (row : Fin 32) (col : Fin 64) : Display :=
  d.set row.val ((d[row.val]'row.isLt).set col.val (!(d.pixel row col)) col.isLt) row.isLt

/-- The display with every pixel off (40_screen_and_flow.md R81). -/
def Display.blank : Display := Vector.replicate dispRows (Vector.replicate dispCols false)

/-- `disp[row][col]` of the state. -/
def State.pixel (s : State) (row : Fin 32) (col : Fin 64) : Bool := s.disp.pixel row col

/-! ## Keypad (10_state.md R26) -/

/-- `keys[k]`. -/
def State.keyDown (s : State) (k : KeyIndex) : Bool := s.keys[k.val]'k.isLt

/-- The smallest pressed key from `k` upward, `fuel` keys looked at. -/
def State.lowestPressedFrom (s : State) (k : Nat) : Nat → Option KeyIndex
  | 0 => none
  | fuel + 1 => if s.keyDown (index16 k) then some (index16 k)
      else State.lowestPressedFrom s (k + 1) fuel

/-- The smallest pressed key, if one is pressed (46_keypad.md R114, D10, notes/assumptions/13.md). -/
def State.lowestPressed (s : State) : Option KeyIndex := s.lowestPressedFrom 0 16

end Sys2Proof.Machine
end

