-- ==== Sys2Proof/Machine/Operands.lean ====
section
/-!
DEFINITION. The operand forms: how an instruction's fields and registers become the values, indices and
addresses its meaning uses.
-/

namespace Sys2Proof.Machine

/-- `zext_16(NNN)` (30_encoding.md R65). -/
def zext16 (nnn : Addr12) : Word16 := BitVec.ofNat 16 nnn.toNat

/-- `NNN + V[0]`, 0 to 4350, unmasked (44_address_jump_random.md R107, D30). -/
def offsetTarget (nnn : Addr12) (v0 : Byte) : Word16 := BitVec.ofNat 16 (nnn.toNat + v0.toNat)

/-- The register the shifts read under a configuration (43_alu.md R102, R104). -/
def shiftSourceReg (c : Config) (x y : Reg) : Reg :=
  match c.shiftSource with
  | .x => x
  | .y => y

/-- The key a register names: its low nibble (46_keypad.md R112, D9, notes/assumptions/12.md). -/
def keyIndex (v : Byte) : KeyIndex := index16 v.toNat

/-- A key's index as the byte FX0A stores (46_keypad.md R114). -/
def keyByte (k : KeyIndex) : Byte := BitVec.ofNat 8 k.val

/-- The start column of a sprite, `V[x] mod 64` (45_draw.md R109). -/
def startCol (v : Byte) : Nat := v.toNat % dispCols

/-- The start row of a sprite, `V[y] mod 32` (45_draw.md R109). -/
def startRow (v : Byte) : Nat := v.toNat % dispRows

/-- The base of every data access, `I` as an unbounded natural number (48_index_memory.md R119). -/
def State.base (s : State) : Nat := s.I.toNat

/-- How many registers FX55 and FX65 transfer: `V[0]` to `V[X]` (48_index_memory.md R123, R124). -/
def regCount (x : Reg) : Nat := x.val + 1

/-- `(I + V[X]) mod 65536` (48_index_memory.md R120, D7). -/
def addToAddress (i : Word16) (v : Byte) : Word16 := BitVec.ofNat 16 (i.toNat + v.toNat)

/-- `FONT_BASE + GLYPH_HEIGHT * V[X]` under a configuration, the whole of `V[X]`
(48_index_memory.md R121, D23). -/
def glyphAddress (c : Config) (v : Byte) : Word16 :=
  BitVec.ofNat 16 (c.fontBase + c.glyphHeight * v.toNat)

/-- The hundreds, tens and units of a byte (48_index_memory.md R122). -/
def bcdDigits (v : Byte) : List Byte :=
  [BitVec.ofNat 8 (v.toNat / 100), BitVec.ofNat 8 (v.toNat / 10 % 10), BitVec.ofNat 8 (v.toNat % 10)]

end Sys2Proof.Machine
end

