-- ==== Sys2Proof/Machine/AddressJumpRandom.lean ====
section
/-!
DEFINITION. Set the address register, jump with offset, random (44_address_jump_random.md).
-/

namespace Sys2Proof.Machine

/-- `LD I, NNN`, R106. -/
def execLdI (nnn : Addr12) (s : State) : Result := .next (s.setI (zext16 nnn)).next

/-- `JP V0, NNN`, R107: the offset register is always `V[0]`. -/
def execJpV0 (nnn : Addr12) (s : State) : Result := .next (s.setPc (offsetTarget nnn (s.reg 0)))

/-- RND with the random byte given: `V[X] <- rnd & NN` (R108). -/
def randomAssign (r : Byte) (x : Reg) (nn : Byte) (s : State) : State := (s.setReg x (r &&& nn)).next

/-- `RND Vx, NN`, R108: the STEP's random input is a free value (10_state.md R31, D16,
notes/assumptions/1.md). -/
def execRnd (x : Reg) (nn : Byte) (s : State) : Result :=
  .next (randomAssign (Config.freeRandomByte s.draws) x nn s).takeDraw

end Sys2Proof.Machine
end

