-- ==== Sys2Proof/Machine/Flags.lean ====
section
/-!
DEFINITION. The flag computations of VF (10_state.md R13, 43_alu.md R95 to R104). Results are computed on
naturals and narrowed at the end.
-/

namespace Sys2Proof.Machine

/-- A flag as the byte stored in VF: every value written as a flag is 0 or 1 (10_state.md R13). -/
def flagByte (b : Bool) : Byte := if b then 1 else 0

/-- The 8-bit sum, wrapped (42_immediate.md R94, 43_alu.md R100). -/
def sum8 (a b : Byte) : Byte := BitVec.ofNat 8 (a.toNat + b.toNat)

/-- Carry out: the sum is above 255 (43_alu.md R100). -/
def carryOut (a b : Byte) : Bool := decide (a.toNat + b.toNat > 255)

/-- The 8-bit difference, wrapped (43_alu.md R101, R103). -/
def diff8 (a b : Byte) : Byte := BitVec.ofNat 8 (a.toNat + 256 - b.toNat)

/-- No borrow: minuend at least subtrahend (43_alu.md R101, R103). -/
def noBorrow (a b : Byte) : Bool := decide (a.toNat ≥ b.toNat)

/-- Logical shift right by one (43_alu.md R102). -/
def shiftRight1 (v : Byte) : Byte := BitVec.ofNat 8 (v.toNat / 2)

/-- The bit a right shift loses, bit 0 (43_alu.md R102). -/
def lostRight (v : Byte) : Bool := v.getLsbD 0

/-- Shift left by one, wrapped (43_alu.md R104). -/
def shiftLeft1 (v : Byte) : Byte := BitVec.ofNat 8 (2 * v.toNat)

/-- The bit a left shift loses, bit 7 (43_alu.md R104). -/
def lostLeft (v : Byte) : Bool := v.getLsbD 7

/-- The result to `V[X]`, then the flag to `V[15]`: with `X = 15` the flag stays
(43_alu.md R95 (2) and (3), D6, notes/assumptions/9.md). -/
def State.setResultThenFlag (s : State) (x : Reg) (result : Byte) (flag : Bool) : State :=
  (s.setReg x result).setReg VF (flagByte flag)

end Sys2Proof.Machine
end

