-- ==== Sys2Proof/Machine/Alu.lean ====
section
/-!
DEFINITION. The register-to-register operations (43_alu.md). Both operands are read before anything is
written (R95 (1)).
-/

namespace Sys2Proof.Machine

/-- `LD Vx, Vy`, R96. -/
def execLdReg (x y : Reg) (s : State) : Result := .next (s.setReg x (s.reg y)).next

/-- `OR Vx, Vy`, R97; no flag (R95 (4), D22). -/
def execOrReg (x y : Reg) (s : State) : Result := .next (s.setReg x (s.reg x ||| s.reg y)).next

/-- `AND Vx, Vy`, R98; no flag (R95 (4), D22). -/
def execAndReg (x y : Reg) (s : State) : Result := .next (s.setReg x (s.reg x &&& s.reg y)).next

/-- `XOR Vx, Vy`, R99; no flag (R95 (4), D22). -/
def execXorReg (x y : Reg) (s : State) : Result := .next (s.setReg x (s.reg x ^^^ s.reg y)).next

/-- `ADD Vx, Vy`, R100. -/
def execAddReg (x y : Reg) (s : State) : Result :=
  .next (s.setResultThenFlag x (sum8 (s.reg x) (s.reg y)) (carryOut (s.reg x) (s.reg y))).next

/-- `SUB Vx, Vy`, R101. -/
def execSubReg (x y : Reg) (s : State) : Result :=
  .next (s.setResultThenFlag x (diff8 (s.reg x) (s.reg y)) (noBorrow (s.reg x) (s.reg y))).next

/-- The right shift under a configuration (R102). -/
def shrWith (c : Config) (x y : Reg) (s : State) : Result :=
  let v := s.reg (shiftSourceReg c x y)
  .next (s.setResultThenFlag x (shiftRight1 v) (lostRight v)).next

/-- `SHR Vx, Vy`, R102 (D5, notes/assumptions/8.md). -/
def execShrReg (x y : Reg) (s : State) : Result := shrWith config x y s

/-- `SUBN Vx, Vy`, R103. -/
def execSubnReg (x y : Reg) (s : State) : Result :=
  .next (s.setResultThenFlag x (diff8 (s.reg y) (s.reg x)) (noBorrow (s.reg y) (s.reg x))).next

/-- The left shift under a configuration (R104). -/
def shlWith (c : Config) (x y : Reg) (s : State) : Result :=
  let v := s.reg (shiftSourceReg c x y)
  .next (s.setResultThenFlag x (shiftLeft1 v) (lostLeft v)).next

/-- `SHL Vx, Vy`, R104 (D5, notes/assumptions/8.md). -/
def execShlReg (x y : Reg) (s : State) : Result := shlWith config x y s

end Sys2Proof.Machine
end

