-- ==== Sys2Proof/Machine/Draw.lean ====
section
/-!
DEFINITION. Draw sprite (45_draw.md).
-/

namespace Sys2Proof.Machine

/-- What the loops of R109 carry: the display and `hit`. -/
structure Canvas where
  /-- The display drawn so far. -/
  disp : Display
  /-- Has a pixel gone from on to off. -/
  hit : Bool
  deriving DecidableEq, Repr

/-- A sprite bit of 1 at a pixel: note a collision, then XOR (R109). -/
def Canvas.plot (cv : Canvas) (row : Fin 32) (col : Fin 64) : Canvas where
  disp := cv.disp.flip row col
  hit := cv.hit || cv.disp.pixel row col

/-- One bit of a sprite row: bit `7 - c` of the byte at column `cx + c`, wrapped (R109, D17). -/
def Canvas.plotBit (b : Byte) (row : Fin 32) (cx : Nat) (cv : Canvas) (c : Nat) : Canvas :=
  if b.getLsbD (7 - c) then cv.plot row (wrapCol (cx + c)) else cv

/-- One sprite row: columns `c` in 0..7 (R109). -/
def Canvas.plotRow (cv : Canvas) (b : Byte) (row : Fin 32) (cx : Nat) : Canvas :=
  (List.range 8).foldl (Canvas.plotBit b row cx) cv

/-- The sprite rows from row `r` on, rows wrapped at the bottom edge (R109). -/
def Canvas.plotRows (cv : Canvas) (cx cy r : Nat) : List Byte → Canvas
  | [] => cv
  | b :: bs => Canvas.plotRows (cv.plotRow b (wrapRow (cy + r)) cx) cx cy (r + 1) bs

/-- Draw the sprite bytes at a start column and row. -/
def State.canvasAfter (s : State) (cx cy : Nat) (bytes : List Byte) : Canvas :=
  Canvas.plotRows { disp := s.disp, hit := false } cx cy 0 bytes

/-- `DRW Vx, Vy, N`, R109. The coordinates are read before VF is written. -/
def execDrw (x y : Reg) (n : Fin 16) (s : State) : Result :=
  withBounds s.base n.val <|
    let cv := s.canvasAfter (startCol (s.reg x)) (startRow (s.reg y)) (s.mem.readBytes s.base n.val)
    .next ((s.setDisp cv.disp).setReg VF (flagByte cv.hit)).next

end Sys2Proof.Machine
end

