-- ==== Sys2Proof/Machine/Flow.lean ====
section
/-!
DEFINITION. Clear screen, return, the no-ops, jump and call (40_screen_and_flow.md).
-/

namespace Sys2Proof.Machine

/-- `CLS`, R81. -/
def execCls (s : State) : Result := .next (s.setDisp Display.blank).next

/-- `RET`, R82: the slot is read with the new `sp`, and 2 is added at the return (D12). -/
def execRet (s : State) : Result :=
  if s.sp.val = 0 then raise (.stackUnderflow s.pc)
  else .next (s.pop.setPc (s.slot s.topSlot + 2))

/-- `SYS NNN`, R83: the legacy family is a no-op whatever its address. -/
def execSys (_nnn : Addr12) (s : State) : Result := .next s.next

/-- `NOP w`, R84: an unrecognised word is a no-op. -/
def execNop (_w : Word16) (s : State) : Result := .next s.next

/-- `JP NNN`, R85. -/
def execJp (nnn : Addr12) (s : State) : Result := .next (s.setPc (zext16 nnn))

/-- `CALL NNN`, R86: the slot receives the address of the CALL (D12). -/
def execCall (nnn : Addr12) (s : State) : Result :=
  if s.sp.val = stackDepth then raise (.stackOverflow s.pc)
  else .next ((s.push s.pc).setPc (zext16 nnn))

end Sys2Proof.Machine
end

