-- ==== Sys2Proof/Machine/Immediate.lean ====
section
/-!
DEFINITION. Assign and add an immediate (42_immediate.md).
-/

namespace Sys2Proof.Machine

/-- `LD Vx, NN`, R93. -/
def execLdImm (x : Reg) (nn : Byte) (s : State) : Result := .next (s.setReg x nn).next

/-- `ADD Vx, NN`, R94: wraps, sets no flag. -/
def execAddImm (x : Reg) (nn : Byte) (s : State) : Result :=
  .next (s.setReg x (sum8 (s.reg x) nn)).next

end Sys2Proof.Machine
end

