-- ==== Sys2Proof/Machine/IndexMemory.lean ====
section
/-!
DEFINITION. Address-register arithmetic, glyph address, BCD, register store and load
(48_index_memory.md). `I` is never changed by a transfer (R119, D8, notes/assumptions/11.md).
-/

namespace Sys2Proof.Machine

/-- `ADD I, Vx`, R120: 16-bit wrap, no flag (D7, notes/assumptions/10.md). -/
def execAddIVx (x : Reg) (s : State) : Result := .next (s.setI (addToAddress s.I (s.reg x))).next

/-- The glyph address under a configuration (R121). -/
def ldFWith (c : Config) (x : Reg) (s : State) : Result :=
  .next (s.setI (glyphAddress c (s.reg x))).next

/-- `LD F, Vx`, R121 (D2, D23, notes/assumptions/21.md). -/
def execLdFVx (x : Reg) (s : State) : Result := ldFWith config x s

/-- Check, then store bytes at `I` in ascending order, then `next` (R122, R123). -/
def storeAtI (bytes : List Byte) (s : State) : Result :=
  withBounds s.base bytes.length (.next (s.setMem (s.mem.writeBytes s.base bytes)).next)

/-- `LD B, Vx`, R122. -/
def execLdBVx (x : Reg) (s : State) : Result := storeAtI (bcdDigits (s.reg x)) s

/-- `LD [I], Vx`, R123. -/
def execStoreRegs (x : Reg) (s : State) : Result := storeAtI (s.regsFrom 0 (regCount x)) s

/-- `LD Vx, [I]`, R124. -/
def execLoadRegs (x : Reg) (s : State) : Result :=
  withBounds s.base (regCount x)
    (.next (s.setRegsFrom 0 (s.mem.readBytes s.base (regCount x))).next)

end Sys2Proof.Machine
end

