-- ==== Sys2Proof/Machine/Keypad.lean ====
section
/-!
DEFINITION. The key skips, wait for key, and the polling STEP (46_keypad.md).
-/

namespace Sys2Proof.Machine

/-- `SKP Vx`, R112. -/
def execSkp (x : Reg) (s : State) : Result := .next (s.skipIf (s.keyDown (keyIndex (s.reg x))))

/-- `SKNP Vx`, R113. -/
def execSknp (x : Reg) (s : State) : Result := .next (s.skipIf (!s.keyDown (keyIndex (s.reg x))))

/-- `LD Vx, K`, R114: resolves at once if a key is down, else suspends with `pc` unchanged (D10, D11,
notes/assumptions/13.md). -/
def execLdVxK (x : Reg) (s : State) : Result :=
  match s.lowestPressed with
  | some k => .next (s.setReg x (keyByte k)).next
  | none => .next (s.setWait x)

/-- `Poll`, R115: the STEP while `wait_key = 1`. No fetch, no error. -/
def poll (s : State) : Result :=
  match s.lowestPressed with
  | some k => .next ((s.setReg s.waitReg (keyByte k)).clearWait).next
  | none => .next s

end Sys2Proof.Machine
end

