-- ==== Sys2Proof/Machine/Skips.lean ====
section
/-!
DEFINITION. The skips on register values (41_skips.md).
-/

namespace Sys2Proof.Machine

/-- `SE Vx, NN`, R88. -/
def execSeImm (x : Reg) (nn : Byte) (s : State) : Result := .next (s.skipIf (s.reg x == nn))

/-- `SNE Vx, NN`, R89. -/
def execSneImm (x : Reg) (nn : Byte) (s : State) : Result := .next (s.skipIf (s.reg x != nn))

/-- `SE Vx, Vy`, R90. -/
def execSeReg (x y : Reg) (s : State) : Result := .next (s.skipIf (s.reg x == s.reg y))

/-- `SNE Vx, Vy`, R91. -/
def execSneReg (x y : Reg) (s : State) : Result := .next (s.skipIf (s.reg x != s.reg y))

end Sys2Proof.Machine
end

