-- ==== Sys2Proof/Machine/Timers.lean ====
section
/-!
DEFINITION. The timer instructions (47_timers.md).
-/

namespace Sys2Proof.Machine

/-- `LD Vx, DT`, R116. -/
def execLdVxDT (x : Reg) (s : State) : Result := .next (s.setReg x s.DT).next

/-- `LD DT, Vx`, R117. -/
def execLdDTVx (x : Reg) (s : State) : Result := .next (s.setDT (s.reg x)).next

/-- `LD ST, Vx`, R118. -/
def execLdSTVx (x : Reg) (s : State) : Result := .next (s.setST (s.reg x)).next

end Sys2Proof.Machine
end

