-- ==== Sys2Proof/Machine/Events.lean ====
section
/-!
DEFINITION. The host's events other than STEP (00_scope.md R9), the host's schedule, and the outputs
(10_state.md R32).
-/

namespace Sys2Proof.Machine

/-! ## The schedule (notes/assumptions/2.md) -/

/-- The event that comes next: the head of the script, or STEP when the script is empty. -/
def State.nextEvent (s : State) : HostEvent := s.host.script.headD .step

/-- The host after it has issued an event: a STEP closes the contract of LOAD (20_memory.md R52). -/
def HostAgent.issue (h : HostAgent) (e : HostEvent) : HostAgent where
  started := h.started || e == .step
  script := h.script.tail

/-- The state once the next event has been issued; the event itself has not acted yet. Only the model's
record of the host changes. -/
def State.issued (s : State) : State := s.setHost (s.host.issue s.nextEvent)

/-! ## The events -/

/-- One timer at a TICK (60_exceptions.md R143). -/
def countDown (t : Byte) : Byte := if t = 0 then 0 else t - 1

/-- TICK (60_exceptions.md R143): each timer on its own, nothing else. -/
def tickEvent (s : State) : State := (s.setDT (countDown s.DT)).setST (countDown s.ST)

/-- KEY (60_exceptions.md R146). -/
def keyEvent (k : KeyIndex) (pressed : Bool) (s : State) : State := s.setKey k pressed

/-- May the host LOAD at this address now (20_memory.md R52): an address of the program area, before the
first STEP after a RESET. -/
def State.mayLoad (s : State) (a : Nat) : Bool :=
  !s.host.started && decide (config.programStart ≤ a) && decide (a < memSize)

/-- LOAD (20_memory.md R52). Outside its contract the host has no such move (notes/assumptions/3.md). -/
def loadEvent (a : Nat) (b : Byte) (s : State) : Result :=
  if s.mayLoad a then .next (s.setMem (s.mem.write a b)) else .refused (.loadOutsideContract a)

/-- RESET (70_reset_and_hazards.md R160): everything at its reset value, whatever it was. The model's own
fields go on: a draw never comes again, and the host keeps its script (notes/assumptions/1.md, 2.md). -/
def resetEvent (s : State) : State :=
  { State.reset with draws := s.draws, host := { started := false, script := s.host.script } }

/-! ## Outputs (10_state.md R32) -/

/-- DISPLAY: the current grid. -/
def State.displayOut (s : State) : Display := s.disp

/-- SOUND: the current `ST`. -/
def State.soundOut (s : State) : Byte := s.ST

/-- `sound_on = (ST > 0)` (60_exceptions.md R145). -/
def State.soundOn (s : State) : Bool := decide (s.ST.toNat > 0)

/-- The code of an error (60_exceptions.md R130, D14, notes/assumptions/16.md). -/
def Fault.code : Fault → Nat
  | .stackOverflow _ => 1
  | .stackUnderflow _ => 2
  | .outOfBoundsAccess _ => 3

/-- The info value of an error (60_exceptions.md R131 to R133, D14). -/
def Fault.info : Fault → Nat
  | .stackOverflow a => a.toNat
  | .stackUnderflow a => a.toNat
  | .outOfBoundsAccess a => a

/-- The result code of a STEP, 0 for `OK` (60_exceptions.md R130). A refusal has none. -/
def resultCode : Result → Option Nat
  | .next _ => some 0
  | .fault f => some f.code
  | .refused _ => none

end Sys2Proof.Machine
end

