-- ==== Sys2Proof/WellFormed.lean ====
section
/-!
DEFINITION. Which terms of `Instr` are instructions of the machine: those whose word is not another
row's. Register indices, immediates and counts are in range by their types; two checks remain, both from
the priority rule 30_encoding.md R67: a `SYS NNN` is not `00E0` or `00EE` (R70), and a `NOP w` is one of
the unrecognised words that R71 enumerates.
-/

namespace Sys2Proof

/-- The unrecognised words, as 30_encoding.md R71 enumerates them family by family. -/
def unrecognised (w : Word16) : Bool :=
  let n3 := w.toNat / 4096
  let n0 := w.toNat % 16
  let nn := w.toNat % 256
  (n3 == 0x5 && n0 != 0) ||
  (n3 == 0x8 && [0x8, 0x9, 0xA, 0xB, 0xC, 0xD, 0xF].contains n0) ||
  (n3 == 0x9 && n0 != 0) ||
  (n3 == 0xE && !([0x9E, 0xA1].contains nn)) ||
  (n3 == 0xF && !([0x07, 0x0A, 0x15, 0x18, 0x1E, 0x29, 0x33, 0x55, 0x65].contains nn))

/-- The legacy addresses: every `NNN` whose word `0NNN` is not CLS or RET (30_encoding.md R70). -/
def legacyAddr (nnn : Addr12) : Bool := nnn != 0x0E0 && nnn != 0x0EE

/-- An instruction term is well formed when its word selects its own row (30_encoding.md R67). -/
def Instr.wellFormed : Instr → Bool
  | .sys nnn => legacyAddr nnn
  | .nop w => unrecognised w
  | .cls | .ret | .jp _ | .call _ | .seImm _ _ | .sneImm _ _ | .seReg _ _ | .ldImm _ _ | .addImm _ _
  | .ldReg _ _ | .orReg _ _ | .andReg _ _ | .xorReg _ _ | .addReg _ _ | .subReg _ _ | .shrReg _ _
  | .subnReg _ _ | .shlReg _ _ | .sneReg _ _ | .ldI _ | .jpV0 _ | .rnd _ _ | .drw _ _ _ | .skp _
  | .sknp _ | .ldVxDT _ | .ldVxK _ | .ldDTVx _ | .ldSTVx _ | .addIVx _ | .ldFVx _ | .ldBVx _
  | .storeRegs _ | .loadRegs _ => true

end Sys2Proof
end

