-- ==== Sys2Proof/Decode.lean ====
section
/-!
DEFINITION. Decoding (30_encoding.md R64 to R72), total on every word, and after it the encoder, written
from the same patterns, and the opcode table of R68 as data.
The opcode numbers are the spec's decisions D3 and D4 (notes/assumptions/7.md).
-/

namespace Sys2Proof

/-! ## Fields (R64, R65) -/

/-- Nibble `k` of a word, nibble 0 the least significant: `n3` is `nibble w 3` (R64). -/
def nibble (w : Word16) (k : Nat) : Fin 16 := index16 (w.toNat / 16 ^ k)

/-- `X` = `n2` = `w[11:8]` (R65). -/
def fieldX (w : Word16) : Reg := nibble w 2

/-- `Y` = `n1` = `w[7:4]` (R65). -/
def fieldY (w : Word16) : Reg := nibble w 1

/-- `N` = `n0` = `w[3:0]` (R65). -/
def fieldN (w : Word16) : Fin 16 := nibble w 0

/-- `NN` = `w[7:0]` (R65). -/
def fieldNN (w : Word16) : Byte := BitVec.ofNat 8 w.toNat

/-- `NNN` = `w[11:0]` (R65). -/
def fieldNNN (w : Word16) : Addr12 := BitVec.ofNat 12 w.toNat

/-! ## Dispatch (R67, R68) -/

/-- Family 0: the exact rows before the legacy family (R67 (a) before (c), R70). -/
def decodeFamily0 (w : Word16) : Instr :=
  if w = 0x00E0 then .cls
  else if w = 0x00EE then .ret
  else .sys (fieldNNN w)

/-- Family 5: `5XY0`, else unrecognised (R71). -/
def decodeFamily5 (w : Word16) : Instr :=
  if (nibble w 0).val = 0 then .seReg (fieldX w) (fieldY w) else .nop w

/-- Family 8: the register operations by their last nibble, else unrecognised (R68, R71). -/
def decodeFamily8 (w : Word16) : Instr :=
  match (nibble w 0).val with
  | 0x0 => .ldReg (fieldX w) (fieldY w)
  | 0x1 => .orReg (fieldX w) (fieldY w)
  | 0x2 => .andReg (fieldX w) (fieldY w)
  | 0x3 => .xorReg (fieldX w) (fieldY w)
  | 0x4 => .addReg (fieldX w) (fieldY w)
  | 0x5 => .subReg (fieldX w) (fieldY w)
  | 0x6 => .shrReg (fieldX w) (fieldY w)
  | 0x7 => .subnReg (fieldX w) (fieldY w)
  | 0xE => .shlReg (fieldX w) (fieldY w)
  | _ => .nop w

/-- Family 9: `9XY0`, else unrecognised (R71). -/
def decodeFamily9 (w : Word16) : Instr :=
  if (nibble w 0).val = 0 then .sneReg (fieldX w) (fieldY w) else .nop w

/-- Family E: the key skips by their low byte, else unrecognised (R71). -/
def decodeFamilyE (w : Word16) : Instr :=
  if fieldNN w = 0x9E then .skp (fieldX w)
  else if fieldNN w = 0xA1 then .sknp (fieldX w)
  else .nop w

/-- Family F: by the low byte, else unrecognised (R71). -/
def decodeFamilyF (w : Word16) : Instr :=
  if fieldNN w = 0x07 then .ldVxDT (fieldX w)
  else if fieldNN w = 0x0A then .ldVxK (fieldX w)
  else if fieldNN w = 0x15 then .ldDTVx (fieldX w)
  else if fieldNN w = 0x18 then .ldSTVx (fieldX w)
  else if fieldNN w = 0x1E then .addIVx (fieldX w)
  else if fieldNN w = 0x29 then .ldFVx (fieldX w)
  else if fieldNN w = 0x33 then .ldBVx (fieldX w)
  else if fieldNN w = 0x55 then .storeRegs (fieldX w)
  else if fieldNN w = 0x65 then .loadRegs (fieldX w)
  else .nop w

/-- The unique handler a word selects (R67). Every one of the 65536 words selects one. -/
def decode (w : Word16) : Instr :=
  match (nibble w 3).val with
  | 0x0 => decodeFamily0 w
  | 0x1 => .jp (fieldNNN w)
  | 0x2 => .call (fieldNNN w)
  | 0x3 => .seImm (fieldX w) (fieldNN w)
  | 0x4 => .sneImm (fieldX w) (fieldNN w)
  | 0x5 => decodeFamily5 w
  | 0x6 => .ldImm (fieldX w) (fieldNN w)
  | 0x7 => .addImm (fieldX w) (fieldNN w)
  | 0x8 => decodeFamily8 w
  | 0x9 => decodeFamily9 w
  | 0xA => .ldI (fieldNNN w)
  | 0xB => .jpV0 (fieldNNN w)
  | 0xC => .rnd (fieldX w) (fieldNN w)
  | 0xD => .drw (fieldX w) (fieldY w) (fieldN w)
  | 0xE => decodeFamilyE w
  | _ => decodeFamilyF w

/-! ## Bytes (R45, R62) -/

/-- The opcode word of two bytes: big-endian (20_memory.md R45). -/
def wordOfBytes (hi lo : Byte) : Word16 := BitVec.ofNat 16 (hi.toNat * 256 + lo.toNat)

/-- The first byte of a word in memory, `w[15:8]` (R64). -/
def hiByte (w : Word16) : Byte := BitVec.ofNat 8 (w.toNat / 256)

/-- The second byte of a word in memory, `w[7:0]` (R64). -/
def loByte (w : Word16) : Byte := BitVec.ofNat 8 w.toNat

/-- Why a sequence of bytes is not an instruction. No word is rejected (R67, R69). -/
inductive DecodeError where
  /-- Fewer than the two bytes every instruction has (R62). Safe. -/
  | tooShort
  deriving DecidableEq, Repr

/-- Decode the instruction at the head of a sequence of bytes, and give the rest (R62). -/
def decodeBytes : List Byte → Except DecodeError (Instr × List Byte)
  | hi :: lo :: rest => .ok (decode (wordOfBytes hi lo), rest)
  | _ => .error .tooShort

/-- The bits of the word that a table row of `nbits` bits gives, the bits above it 0. -/
def tableWord (nbits w : Nat) : Word16 := BitVec.ofNat 16 (w % 2 ^ nbits)

/-- What the decoder reads from a word numbered as spec/opcode_table.json numbers it: laid out in two
bytes as memory holds them, then decoded. -/
def decodeTableWord (nbits w : Nat) : Option Instr :=
  match decodeBytes [hiByte (tableWord nbits w), loByte (tableWord nbits w)] with
  | .ok (i, _) => some i
  | .error _ => none

/-! ## The encoder (R66, R68) -/

/-- Format `NNN`: `f N N N`. -/
def encodeNNN (f : Nat) (nnn : Addr12) : Word16 := BitVec.ofNat 16 (f * 4096 + nnn.toNat)

/-- Format `XNN`: `f X N N`. -/
def encodeXNN (f : Nat) (x : Reg) (nn : Byte) : Word16 :=
  BitVec.ofNat 16 (f * 4096 + x.val * 256 + nn.toNat)

/-- Formats `XYO` and `XYN`: `f X Y o`. -/
def encodeXYN (f : Nat) (x y : Reg) (o : Nat) : Word16 :=
  BitVec.ofNat 16 (f * 4096 + x.val * 256 + y.val * 16 + o)

/-- Format `XOO`: `f X o o`. -/
def encodeXOO (f : Nat) (x : Reg) (oo : Nat) : Word16 :=
  BitVec.ofNat 16 (f * 4096 + x.val * 256 + oo)

/-- The word of an instruction (R68). -/
def encode : Instr → Word16
  | .cls => 0x00E0
  | .ret => 0x00EE
  | .sys nnn => encodeNNN 0x0 nnn
  | .jp nnn => encodeNNN 0x1 nnn
  | .call nnn => encodeNNN 0x2 nnn
  | .seImm x nn => encodeXNN 0x3 x nn
  | .sneImm x nn => encodeXNN 0x4 x nn
  | .seReg x y => encodeXYN 0x5 x y 0x0
  | .ldImm x nn => encodeXNN 0x6 x nn
  | .addImm x nn => encodeXNN 0x7 x nn
  | .ldReg x y => encodeXYN 0x8 x y 0x0
  | .orReg x y => encodeXYN 0x8 x y 0x1
  | .andReg x y => encodeXYN 0x8 x y 0x2
  | .xorReg x y => encodeXYN 0x8 x y 0x3
  | .addReg x y => encodeXYN 0x8 x y 0x4
  | .subReg x y => encodeXYN 0x8 x y 0x5
  | .shrReg x y => encodeXYN 0x8 x y 0x6
  | .subnReg x y => encodeXYN 0x8 x y 0x7
  | .shlReg x y => encodeXYN 0x8 x y 0xE
  | .sneReg x y => encodeXYN 0x9 x y 0x0
  | .ldI nnn => encodeNNN 0xA nnn
  | .jpV0 nnn => encodeNNN 0xB nnn
  | .rnd x nn => encodeXNN 0xC x nn
  | .drw x y n => encodeXYN 0xD x y n.val
  | .skp x => encodeXOO 0xE x 0x9E
  | .sknp x => encodeXOO 0xE x 0xA1
  | .ldVxDT x => encodeXOO 0xF x 0x07
  | .ldVxK x => encodeXOO 0xF x 0x0A
  | .ldDTVx x => encodeXOO 0xF x 0x15
  | .ldSTVx x => encodeXOO 0xF x 0x18
  | .addIVx x => encodeXOO 0xF x 0x1E
  | .ldFVx x => encodeXOO 0xF x 0x29
  | .ldBVx x => encodeXOO 0xF x 0x33
  | .storeRegs x => encodeXOO 0xF x 0x55
  | .loadRegs x => encodeXOO 0xF x 0x65
  | .nop w => w

/-! ## The opcode table as data (R67, R68) -/

/-- A row of the opcode table: selected when `w & mask = pattern`, lower priority numbers first (R67). -/
structure OpcodeRow where
  /-- The row's mnemonic, as spec/opcode_table.json spells it. -/
  mnemonic : String
  /-- The fixed bits. -/
  mask : Word16
  /-- Their values. -/
  pattern : Word16
  /-- 1 for class (a), 2 for class (b), 3 for class (c), 4 for the catch-all (R67). -/
  priority : Nat
  deriving DecidableEq, Repr

/-- Rows 0 to 11 of the opcode table, in its order (30_encoding.md R68). -/
def opcodeRows0 : List OpcodeRow :=
  [⟨"CLS", 0xFFFF, 0x00E0, 1⟩,
   ⟨"RET", 0xFFFF, 0x00EE, 1⟩,
   ⟨"SYS_NNN", 0xF000, 0x0000, 3⟩,
   ⟨"JP_NNN", 0xF000, 0x1000, 3⟩,
   ⟨"CALL_NNN", 0xF000, 0x2000, 3⟩,
   ⟨"SE_Vx__NN", 0xF000, 0x3000, 3⟩,
   ⟨"SNE_Vx__NN", 0xF000, 0x4000, 3⟩,
   ⟨"SE_Vx__Vy", 0xF00F, 0x5000, 2⟩,
   ⟨"LD_Vx__NN", 0xF000, 0x6000, 3⟩,
   ⟨"ADD_Vx__NN", 0xF000, 0x7000, 3⟩,
   ⟨"LD_Vx__Vy", 0xF00F, 0x8000, 2⟩,
   ⟨"OR_Vx__Vy", 0xF00F, 0x8001, 2⟩]

/-- Rows 12 to 23 of the opcode table, in its order (30_encoding.md R68). -/
def opcodeRows1 : List OpcodeRow :=
  [⟨"AND_Vx__Vy", 0xF00F, 0x8002, 2⟩,
   ⟨"XOR_Vx__Vy", 0xF00F, 0x8003, 2⟩,
   ⟨"ADD_Vx__Vy", 0xF00F, 0x8004, 2⟩,
   ⟨"SUB_Vx__Vy", 0xF00F, 0x8005, 2⟩,
   ⟨"SHR_Vx__Vy", 0xF00F, 0x8006, 2⟩,
   ⟨"SUBN_Vx__Vy", 0xF00F, 0x8007, 2⟩,
   ⟨"SHL_Vx__Vy", 0xF00F, 0x800E, 2⟩,
   ⟨"SNE_Vx__Vy", 0xF00F, 0x9000, 2⟩,
   ⟨"LD_I__NNN", 0xF000, 0xA000, 3⟩,
   ⟨"JP_V0__NNN", 0xF000, 0xB000, 3⟩,
   ⟨"RND_Vx__NN", 0xF000, 0xC000, 3⟩,
   ⟨"DRW_Vx__Vy__N", 0xF000, 0xD000, 3⟩]

/-- Rows 24 to 35 of the opcode table, in its order (30_encoding.md R68). -/
def opcodeRows2 : List OpcodeRow :=
  [⟨"SKP_Vx", 0xF0FF, 0xE09E, 2⟩,
   ⟨"SKNP_Vx", 0xF0FF, 0xE0A1, 2⟩,
   ⟨"LD_Vx__DT", 0xF0FF, 0xF007, 2⟩,
   ⟨"LD_Vx__K", 0xF0FF, 0xF00A, 2⟩,
   ⟨"LD_DT__Vx", 0xF0FF, 0xF015, 2⟩,
   ⟨"LD_ST__Vx", 0xF0FF, 0xF018, 2⟩,
   ⟨"ADD_I__Vx", 0xF0FF, 0xF01E, 2⟩,
   ⟨"LD_F__Vx", 0xF0FF, 0xF029, 2⟩,
   ⟨"LD_B__Vx", 0xF0FF, 0xF033, 2⟩,
   ⟨"LD__I___Vx", 0xF0FF, 0xF055, 2⟩,
   ⟨"LD_Vx___I", 0xF0FF, 0xF065, 2⟩,
   ⟨"NOP_w", 0x0000, 0x0000, 4⟩]

/-- The opcode table (R68). -/
def opcodeTable : List OpcodeRow := opcodeRows0 ++ opcodeRows1 ++ opcodeRows2

/-- A row matches a word (R67). -/
def OpcodeRow.hits (r : OpcodeRow) (w : Word16) : Bool := w &&& r.mask == r.pattern

/-- The number of the row an instruction stands for, counted from 0 in the order of the table. -/
def Instr.rowNumber : Instr → Nat
  | .cls => 0
  | .ret => 1
  | .sys _ => 2
  | .jp _ => 3
  | .call _ => 4
  | .seImm _ _ => 5
  | .sneImm _ _ => 6
  | .seReg _ _ => 7
  | .ldImm _ _ => 8
  | .addImm _ _ => 9
  | .ldReg _ _ => 10
  | .orReg _ _ => 11
  | .andReg _ _ => 12
  | .xorReg _ _ => 13
  | .addReg _ _ => 14
  | .subReg _ _ => 15
  | .shrReg _ _ => 16
  | .subnReg _ _ => 17
  | .shlReg _ _ => 18
  | .sneReg _ _ => 19
  | .ldI _ => 20
  | .jpV0 _ => 21
  | .rnd _ _ => 22
  | .drw _ _ _ => 23
  | .skp _ => 24
  | .sknp _ => 25
  | .ldVxDT _ => 26
  | .ldVxK _ => 27
  | .ldDTVx _ => 28
  | .ldSTVx _ => 29
  | .addIVx _ => 30
  | .ldFVx _ => 31
  | .ldBVx _ => 32
  | .storeRegs _ => 33
  | .loadRegs _ => 34
  | .nop _ => 35

end Sys2Proof
end

