-- ==== Sys2Proof/Machine/Fetch.lean ====
section
/-!
DEFINITION. Fetching an instruction's bytes (30_encoding.md R63, 20_memory.md R45).
-/

namespace Sys2Proof.Machine

/-- The word at an address: two one-byte reads, big-endian (20_memory.md R45, R48). -/
def Memory.wordAt (m : Memory) (a : Nat) : Word16 := wordOfBytes (m.read a) (m.read (a + 1))

/-- The fetch check: `pc + 1` computed without wrap (30_encoding.md R63). -/
def State.canFetch (s : State) : Bool := decide (s.pc.toNat + 1 < memSize)

/-- Fetch the opcode word and go on with it, or raise OutOfBoundsAccess with the lowest bad address of
`pc`, `pc + 1` (30_encoding.md R61, R63). -/
def withFetched (s : State) (go : Word16 → Result) : Result :=
  match firstOutOfBounds s.pc.toNat 2 with
  | some a => raise (.outOfBoundsAccess a)
  | none => go (s.mem.wordAt s.pc.toNat)

/-- Store an opcode word at an address, as a fetch reads it. -/
def Memory.writeWord (m : Memory) (a : Nat) (w : Word16) : Memory :=
  m.writeBytes a [hiByte w, loByte w]

end Sys2Proof.Machine
end

