-- ==== Sys2Proof/Machine/Step.lean ====
section
/-!
DEFINITION. One step of the machine is one event (00_scope.md R9): the STEP of 30_encoding.md R61, or one
of the host's other events when the schedule says so.
-/

namespace Sys2Proof.Machine

/-- The STEP event (30_encoding.md R61): poll while suspended, else fetch, decode and run one handler. -/
def stepEvent (s : State) : Host.Outcome State Fault Refusal :=
  if s.waitKey then poll s else withFetched s fun w => exec (decode w) s

/-- One event. -/
def step (s : State) : Host.Outcome State Fault Refusal :=
  match s.nextEvent with
  | .step => stepEvent s.issued
  | .tick => .next (tickEvent s.issued)
  | .key k pressed => .next (keyEvent k pressed s.issued)
  | .load a b => loadEvent a b s.issued
  | .read => .next s.issued
  | .reset => .next (resetEvent s.issued)

/-- Where a fetch will find its word: at `pc` if a fetch there is in bounds, else at `PROGRAM_START`. -/
def State.fetchPc (s : State) : Word16 :=
  if s.canFetch then s.pc else BitVec.ofNat 16 config.programStart

/-- `s` with an instruction stored where the next step fetches, so that the very next step runs exactly
it: the word at `pc`, no suspended FX0A, and no other event of the host before the STEP
(notes/assumptions/4.md). -/
def State.withFetchWord (s : State) (nbits w : Nat) : State :=
  { s with
    mem := s.mem.writeWord s.fetchPc.toNat (tableWord nbits w)
    pc := s.fetchPc
    waitKey := false
    host := { s.host with script := s.host.script.dropWhile (· != .step) } }

end Sys2Proof.Machine
end

