-- ==== Sys2Proof/Safety.lean ====
section
/-!
DEFINITION. The terms claims are stated in: what an event or instruction leaves unchanged, the invariant
of the machine, runs without an error, and the end of a run (70_reset_and_hazards.md R163).
-/

namespace Sys2Proof.Machine

/-! ## What stays unchanged (00_scope.md R8) -/

/-- The pieces of state a frame speaks of: the entries of 10_state.md R11, `stack` and `sp` apart,
`wait_key` and `wait_reg` together, and the model's own two fields. -/
inductive Part where
  | regs | pc | addressReg | slots | stackIndex | delayTimer | soundTimer | display | keypad | wait
  | memory | draws | host
  deriving DecidableEq, Repr

/-- A piece of state is the same in `t` as in `s`. Memory is compared byte by byte, at every address. -/
def Part.same (p : Part) (s t : State) : Prop :=
  match p with
  | .regs => ∀ r : Reg, t.reg r = s.reg r
  | .pc => t.pc = s.pc
  | .addressReg => t.I = s.I
  | .slots => ∀ k : Fin 16, t.slot k = s.slot k
  | .stackIndex => t.sp = s.sp
  | .delayTimer => t.DT = s.DT
  | .soundTimer => t.ST = s.ST
  | .display => ∀ (row : Fin 32) (col : Fin 64), t.pixel row col = s.pixel row col
  | .keypad => ∀ k : KeyIndex, t.keyDown k = s.keyDown k
  | .wait => t.waitKey = s.waitKey ∧ t.waitReg = s.waitReg
  | .memory => ∀ a : Nat, t.mem.read a = s.mem.read a
  | .draws => t.draws = s.draws
  | .host => t.host = s.host

/-- Every piece of state outside the list is the same in `t` as in `s`. -/
def OnlyChanges (changed : List Part) (s t : State) : Prop := ∀ p : Part, p ∉ changed → p.same s t

/-- The registers of `t` are those of `s` but for `x`, which holds `b`. -/
def RegsAre (x : Reg) (b : Byte) (s t : State) : Prop :=
  ∀ r : Reg, t.reg r = if r = x then b else s.reg r

/-- The registers of `t` are those of `s` but for `x`, which holds `b`, and VF, which holds the flag; the
flag wins at VF (43_alu.md R95 (3)). -/
def RegsAndFlagAre (x : Reg) (b : Byte) (flag : Bool) (s t : State) : Prop :=
  ∀ r : Reg, t.reg r = if r = VF then flagByte flag else if r = x then b else s.reg r

/-- The bytes outside the `len` bytes from `base` on read in `t` as they did in `s`. -/
def OnlyStoresIn (base len : Nat) (s t : State) : Prop :=
  ∀ a : Nat, a < base ∨ base + len ≤ a → t.mem.read a = s.mem.read a

/-- The instruction skips the next one if `c` holds and goes to it if not, and changes `pc` only
(41_skips.md R92). -/
def SkipsWhen (i : Instr) (c : Prop) (s : State) : Prop :=
  ∃ t, exec i s = .next t ∧ OnlyChanges [.pc] s t ∧ (c → t.pc = s.pc + 4) ∧ (¬ c → t.pc = s.pc + 2)

/-- Row `row` and column `col` of the display are row `k` and column `c` of a sprite drawn at start column
`cx` and start row `cy` (45_draw.md R109). -/
def IsSpritePixel (cx cy k c : Nat) (row : Fin 32) (col : Fin 64) : Prop :=
  row.val = (cy + k) % 32 ∧ col.val = (cx + c) % 64

/-- The smallest pressed key (46_keypad.md R114). -/
def IsLowestPressed (k : KeyIndex) (s : State) : Prop :=
  s.keyDown k = true ∧ ∀ j : KeyIndex, j < k → s.keyDown j = false

/-! ## The invariant -/

/-- The word at `pc`, decoded. -/
def State.nextInstr (s : State) : Instr := decode (s.mem.wordAt s.pc.toNat)

/-- `pc` stays where no write of it wraps: at most `0xFFF + 255` (10_state.md R18). -/
def State.pcInRange (s : State) : Prop := s.pc.toNat ≤ 4350

/-- Every slot holds the address of a CALL that executed, or 0: at most 4094 (10_state.md R18, R21). -/
def State.slotsInRange (s : State) : Prop := ∀ k : Fin 16, (s.slot k).toNat + 1 < 4096

/-- While suspended, `pc` is in bounds for a fetch, and the FX0A with destination `wait_reg` still stands
there (46_keypad.md R114, R115; 20_memory.md R57), no LOAD being possible any more (R52). -/
def State.waitIsAtFX0A (s : State) : Prop :=
  s.waitKey = true → s.pc.toNat + 1 < 4096 ∧ s.host.started = true ∧ s.nextInstr = .ldVxK s.waitReg

/-- The invariant of the machine. Every event keeps it, and RESET establishes it. -/
structure State.Inv (s : State) : Prop where
  /-- Memory is in its canonical form. -/
  memory : s.mem.wf = true
  /-- `pc` is in range. -/
  pc : s.pcInRange
  /-- The slots are in range. -/
  slots : s.slotsInRange
  /-- A suspended machine stands at its FX0A. -/
  wait : s.waitIsAtFX0A

/-! ## Runs -/

/-- `k` events from `s` on, none of which raised an error, lead to `t` (60_exceptions.md R139: every claim
about a program takes "no STEP raised" as a premise or proves it). -/
inductive RunsTo : Nat → State → State → Prop where
  | refl (s : State) : RunsTo 0 s s
  | more {k : Nat} {s t u : State} (h : step s = .next t) (r : RunsTo k t u) : RunsTo (k + 1) s u

/-- A program has finished at address `e` (70_reset_and_hazards.md R163, D24, notes/assumptions/22.md): a
definition for claims, not a behaviour of the hardware. -/
def FinishedAt (e : Addr12) (s : State) : Prop :=
  s.pc = zext16 e ∧ s.waitKey = false ∧ s.canFetch = true ∧ s.mem.wordAt s.pc.toNat = encode (.jp e)

/-- The state with the wait flag forgotten (46_keypad.md R115: the machine without the flag). -/
def State.forgetWait (s : State) : State := { s with waitKey := false, waitReg := 0 }

end Sys2Proof.Machine
end

