-- ==== Sys2Proof/Certificates/Slice0/Obligations.lean ====
section
/-!
DEFINITION. The statements for the provers. Vocabulary: Sys2Proof/Safety.lean. Where a clause rests on a
decision of the spec (92_eei_decisions.md D<n>) or on a choice of the model, the docstring says so and
names the log entry (notes/assumptions/<n>.md). Every frame is said with `OnlyChanges`: all that the list
leaves out is unchanged, every byte of memory and every pixel among it.
-/

open Sys2Proof Sys2Proof.Machine

/-! ## Screen and flow -/

/-- R81: CLS turns every pixel off and changes nothing else but `pc`. -/
def Obligations.ClearScreenTurnsEveryPixelOff : Prop :=
  ∀ s : State, ∃ t, exec .cls s = .next t ∧ OnlyChanges [.display, .pc] s t ∧
    (∀ row col, t.pixel row col = false) ∧ t.pc = s.pc + 2

/-- R82, R132: RET at `sp = 0` raises StackUnderflow; else it takes the slot below `sp`, which keeps its
value, and goes 2 past it. Rests on D12 and D26 (log 14) and D14 (log 16). -/
def Obligations.ReturnGoesPastTheCallOrUnderflows : Prop :=
  ∀ s : State,
    (s.sp.val = 0 → exec .ret s = .fault (.stackUnderflow s.pc)) ∧
    (∀ k : Fin 16, s.sp.val = k.val + 1 → ∃ t, exec .ret s = .next t ∧
      OnlyChanges [.stackIndex, .pc] s t ∧ t.sp.val = k.val ∧ t.pc = s.slot k + 2)

/-- R86, R131: CALL at `sp = 16` raises StackOverflow; else it stores its own address in the next free
slot and jumps. Rests on D12 (log 14) and D14 (log 16). -/
def Obligations.CallPushesItsAddressOrOverflows : Prop :=
  ∀ (nnn : Addr12) (s : State),
    (s.sp.val = 16 → exec (.call nnn) s = .fault (.stackOverflow s.pc)) ∧
    (∀ k : Fin 16, s.sp.val = k.val → ∃ t, exec (.call nnn) s = .next t ∧
      OnlyChanges [.slots, .stackIndex, .pc] s t ∧
      (∀ j : Fin 16, t.slot j = if j = k then s.pc else s.slot j) ∧
      t.sp.val = k.val + 1 ∧ t.pc.toNat = nnn.toNat)

/-- R87, the pair law: whatever happens between, a RET that finds the CALL's slot untouched and `sp` one
above goes to the instruction after the CALL and restores `sp`. An inference the spec marks as its own. -/
def Obligations.CallThenReturnResumesAfterTheCall : Prop :=
  ∀ (nnn : Addr12) (s : State) (k : Fin 16), s.sp.val = k.val →
    ∃ t, exec (.call nnn) s = .next t ∧
      ∀ u : State, u.sp.val = k.val + 1 → u.slot k = t.slot k →
        ∃ w, exec .ret u = .next w ∧ w.pc = s.pc + 2 ∧ w.sp = s.sp

/-- "17th nested call raises StackOverflow" (R86, R131, 90_conflicts.md C2): a CALL to itself, started
with an empty stack and no other event of the host, runs 16 times and raises at the 17th STEP. Rests on
D14 (log 16) for the info value. -/
def Obligations.SeventeenthNestedCallOverflows : Prop :=
  ∀ (a : Addr12) (s : State), s.host.script = [] → s.waitKey = false → s.sp.val = 0 →
    s.pc.toNat = a.toNat → a.toNat + 1 < 4096 → s.mem.wordAt a.toNat = encode (.call a) →
    ∃ t, RunsTo 16 s t ∧ t.sp.val = 16 ∧ t.pc = s.pc ∧ step t = .fault (.stackOverflow s.pc)

/-- R83, R84: the legacy family and every unrecognised word only advance `pc` by 2. -/
def Obligations.NoOpsOnlyAdvancePc : Prop :=
  ∀ (nnn : Addr12) (w : Word16) (s : State),
    (∃ t, exec (.sys nnn) s = .next t ∧ OnlyChanges [.pc] s t ∧ t.pc = s.pc + 2) ∧
    (∃ t, exec (.nop w) s = .next t ∧ OnlyChanges [.pc] s t ∧ t.pc = s.pc + 2)

/-- R85: JP sets `pc` to `NNN`, zero-extended, and nothing else. -/
def Obligations.JumpSetsPcToTarget : Prop :=
  ∀ (nnn : Addr12) (s : State), ∃ t, exec (.jp nnn) s = .next t ∧ OnlyChanges [.pc] s t ∧
    t.pc.toNat = nnn.toNat

/-- R107: JP V0 sets `pc` to `NNN + V[0]`, not reduced (D30, log 24). -/
def Obligations.JumpWithOffsetAddsV0 : Prop :=
  ∀ (nnn : Addr12) (s : State), ∃ t, exec (.jpV0 nnn) s = .next t ∧ OnlyChanges [.pc] s t ∧
    t.pc.toNat = nnn.toNat + (s.reg 0).toNat

/-! ## Skips -/

/-- R88 to R91: the four skips on register values. -/
def Obligations.RegisterSkipsFollowTheirCondition : Prop :=
  ∀ (x y : Reg) (nn : Byte) (s : State),
    SkipsWhen (.seImm x nn) (s.reg x = nn) s ∧ SkipsWhen (.sneImm x nn) (s.reg x ≠ nn) s ∧
    SkipsWhen (.seReg x y) (s.reg x = s.reg y) s ∧ SkipsWhen (.sneReg x y) (s.reg x ≠ s.reg y) s

/-- R112, R113: the two key skips test the key that the low nibble of `V[X]` names (D9, log 12). -/
def Obligations.KeySkipsTestTheLowNibbleKey : Prop :=
  ∀ (x : Reg) (k : KeyIndex) (s : State), k.val = (s.reg x).toNat % 16 →
    SkipsWhen (.skp x) (s.keyDown k = true) s ∧ SkipsWhen (.sknp x) (s.keyDown k = false) s

/-! ## Immediates and registers -/

/-- R93: assign an immediate; VF is only written when it is the destination. -/
def Obligations.AssignImmediateWritesOneRegister : Prop :=
  ∀ (x : Reg) (nn : Byte) (s : State), ∃ t, exec (.ldImm x nn) s = .next t ∧
    OnlyChanges [.regs, .pc] s t ∧ RegsAre x nn s t ∧ t.pc = s.pc + 2

/-- R94: add an immediate, wrapping modulo 256, with no flag. -/
def Obligations.AddImmediateWrapsWithoutFlag : Prop :=
  ∀ (x : Reg) (nn : Byte) (s : State), ∃ t, exec (.addImm x nn) s = .next t ∧
    OnlyChanges [.regs, .pc] s t ∧ (t.reg x).toNat = ((s.reg x).toNat + nn.toNat) % 256 ∧
    (∀ r, r ≠ x → t.reg r = s.reg r) ∧ t.pc = s.pc + 2

/-- R96 to R99: assign, OR, AND, XOR write `V[X]` only; VF is not written as a flag (R95 (4), D22,
log 20). -/
def Obligations.AssignAndLogicWriteOneRegister : Prop :=
  ∀ (x y : Reg) (s : State),
    (∃ t, exec (.ldReg x y) s = .next t ∧ OnlyChanges [.regs, .pc] s t ∧
      RegsAre x (s.reg y) s t ∧ t.pc = s.pc + 2) ∧
    (∃ t, exec (.orReg x y) s = .next t ∧ OnlyChanges [.regs, .pc] s t ∧
      RegsAre x (s.reg x ||| s.reg y) s t ∧ t.pc = s.pc + 2) ∧
    (∃ t, exec (.andReg x y) s = .next t ∧ OnlyChanges [.regs, .pc] s t ∧
      RegsAre x (s.reg x &&& s.reg y) s t ∧ t.pc = s.pc + 2) ∧
    (∃ t, exec (.xorReg x y) s = .next t ∧ OnlyChanges [.regs, .pc] s t ∧
      RegsAre x (s.reg x ^^^ s.reg y) s t ∧ t.pc = s.pc + 2)

/-- R100 with R95: ADD gives the wrapped sum and the carry; with `X = 15` the carry stays (D6, log 9). -/
def Obligations.AddSetsSumAndCarry : Prop :=
  ∀ (x y : Reg) (s : State), ∃ t, exec (.addReg x y) s = .next t ∧ OnlyChanges [.regs, .pc] s t ∧
    RegsAndFlagAre x (s.reg x + s.reg y) (decide (255 < (s.reg x).toNat + (s.reg y).toNat)) s t ∧
    t.pc = s.pc + 2

/-- R101, R103 with R95: SUB and SUBN give the wrapped difference and 1 when no borrow occurred; with
`X = 15` the flag stays (D6, log 9). -/
def Obligations.SubtractionsSetDifferenceAndNoBorrow : Prop :=
  ∀ (x y : Reg) (s : State),
    (∃ t, exec (.subReg x y) s = .next t ∧ OnlyChanges [.regs, .pc] s t ∧
      RegsAndFlagAre x (s.reg x - s.reg y) (decide ((s.reg y).toNat ≤ (s.reg x).toNat)) s t ∧
      t.pc = s.pc + 2) ∧
    (∃ t, exec (.subnReg x y) s = .next t ∧ OnlyChanges [.regs, .pc] s t ∧
      RegsAndFlagAre x (s.reg y - s.reg x) (decide ((s.reg x).toNat ≤ (s.reg y).toNat)) s t ∧
      t.pc = s.pc + 2)

/-- R102, R104 with R95: SHR and SHL of this machine shift `V[Y]` by one and keep the lost bit in VF
(D5, log 8; D6, log 9). -/
def Obligations.ShiftsMoveOneBitAndKeepTheLostOne : Prop :=
  ∀ (x y : Reg) (s : State),
    (∃ t, exec (.shrReg x y) s = .next t ∧ OnlyChanges [.regs, .pc] s t ∧
      RegsAndFlagAre x (s.reg y >>> 1) ((s.reg y).getLsbD 0) s t ∧ t.pc = s.pc + 2) ∧
    (∃ t, exec (.shlReg x y) s = .next t ∧ OnlyChanges [.regs, .pc] s t ∧
      RegsAndFlagAre x (s.reg y <<< 1) ((s.reg y).getLsbD 7) s t ∧ t.pc = s.pc + 2)

/-- R102, R104, R5: under every configuration SHR and SHL shift `V[Y]` if `SHIFT_SOURCE` is `Y` and `V[X]`
if it is `X`, keep the lost bit of that register in VF, and are the shifts of this machine when `X = Y`
(D5, log 8; D6, log 9; the parameter, log 26). `z` is the register shifted. -/
def Obligations.ShiftsFollowTheConfiguredSource : Prop :=
  ∀ (c : Config) (x y z : Reg) (s : State),
    (c.shiftSource = .y ∧ z = y) ∨ (c.shiftSource = .x ∧ z = x) →
    (∃ t, shrWith c x y s = .next t ∧ OnlyChanges [.regs, .pc] s t ∧
      RegsAndFlagAre x (s.reg z >>> 1) ((s.reg z).getLsbD 0) s t ∧ t.pc = s.pc + 2) ∧
    (∃ t, shlWith c x y s = .next t ∧ OnlyChanges [.regs, .pc] s t ∧
      RegsAndFlagAre x (s.reg z <<< 1) ((s.reg z).getLsbD 7) s t ∧ t.pc = s.pc + 2) ∧
    (x = y → shrWith c x y s = exec (.shrReg x y) s ∧ shlWith c x y s = exec (.shlReg x y) s)

/-! ## Address register, random, timers -/

/-- R106: LD I sets `I` to `NNN`, zero-extended. -/
def Obligations.SetAddressRegisterZeroExtends : Prop :=
  ∀ (nnn : Addr12) (s : State), ∃ t, exec (.ldI nnn) s = .next t ∧
    OnlyChanges [.addressReg, .pc] s t ∧ t.I.toNat = nnn.toNat ∧ t.pc = s.pc + 2

/-- R120: ADD I wraps at 16 bits and sets no flag (D7, log 10). -/
def Obligations.AddToAddressRegisterWrapsAtSixteenBits : Prop :=
  ∀ (x : Reg) (s : State), ∃ t, exec (.addIVx x) s = .next t ∧
    OnlyChanges [.addressReg, .pc] s t ∧ t.I.toNat = (s.I.toNat + (s.reg x).toNat) % 65536 ∧
    t.pc = s.pc + 2

/-- R121: LD F of this machine gives `0x50 + 5 * V[X]`, and under every valid configuration
`FONT_BASE + GLYPH_HEIGHT * V[X]` with no wrap (D2, log 5; D23, log 21). -/
def Obligations.GlyphAddressNeverWraps : Prop :=
  ∀ (x : Reg) (s : State),
    (∃ t, exec (.ldFVx x) s = .next t ∧ OnlyChanges [.addressReg, .pc] s t ∧
      t.I.toNat = 0x50 + 5 * (s.reg x).toNat ∧ t.pc = s.pc + 2) ∧
    (∀ c : Config, c.valid = true → ∃ t, ldFWith c x s = .next t ∧
      OnlyChanges [.addressReg, .pc] s t ∧ t.I.toNat = c.fontBase + c.glyphHeight * (s.reg x).toNat ∧
      t.pc = s.pc + 2)

/-- R33, R35, R111, R121: while the font table still reads as after RESET, whatever the rest of memory
holds, LD F of a digit leads to that digit's glyph in `FONT_DATA` (D2, D20, log 5). -/
def Obligations.GlyphAddressLeadsToTheGlyph : Prop :=
  ∀ (x : Reg) (s : State) (k : Nat), (∀ a, 0x50 ≤ a → a ≤ 0x9F → s.mem.read a = resetByte a) →
    (s.reg x).toNat ≤ 15 → k < 5 →
    ∃ t, exec (.ldFVx x) s = .next t ∧ OnlyChanges [.addressReg, .pc] s t ∧ t.pc = s.pc + 2 ∧
      config.fontData[5 * (s.reg x).toNat + k]? = some (t.mem.read (t.I.toNat + k))

/-- R108: RND stores the random byte AND `NN`, whatever the byte is; one byte is drawn. The byte is a
free value and `draws` the model's own field (D16, log 1). -/
def Obligations.RandomAssignMasksTheRandomByte : Prop :=
  ∀ (x : Reg) (nn : Byte) (s : State),
    (∃ t, exec (.rnd x nn) s = .next t ∧ OnlyChanges [.regs, .pc, .draws] s t ∧
      RegsAre x (Config.freeRandomByte s.draws &&& nn) s t ∧ (t.reg x &&& ~~~nn) = 0 ∧
      t.pc = s.pc + 2 ∧ t.draws = s.draws + 1) ∧
    (∀ r : Byte, OnlyChanges [.regs, .pc] s (randomAssign r x nn s) ∧
      RegsAre x (r &&& nn) s (randomAssign r x nn s) ∧ (randomAssign r x nn s).pc = s.pc + 2)

/-- R116, R117, R118: the three timer instructions; a nonzero value written to `ST` turns `sound_on` on. -/
def Obligations.TimerInstructionsCopyOneByte : Prop :=
  ∀ (x : Reg) (s : State),
    (∃ t, exec (.ldVxDT x) s = .next t ∧ OnlyChanges [.regs, .pc] s t ∧ RegsAre x s.DT s t ∧
      t.pc = s.pc + 2) ∧
    (∃ t, exec (.ldDTVx x) s = .next t ∧ OnlyChanges [.delayTimer, .pc] s t ∧ t.DT = s.reg x ∧
      t.pc = s.pc + 2) ∧
    (∃ t, exec (.ldSTVx x) s = .next t ∧ OnlyChanges [.soundTimer, .pc] s t ∧ t.ST = s.reg x ∧
      (t.soundOn = true ↔ s.reg x ≠ 0) ∧ t.pc = s.pc + 2)

/-! ## Memory transfers -/

/-- R122: LD B stores the three digits at `I`, `I+1`, `I+2`, and nothing elsewhere; out of bounds it
raises with the lowest bad address. Rests on D8 (log 11), D29 (log 15), D14 (log 16). Memory is in canonical
form, an invariant of the machine (InvariantKeptByEveryEvent). -/
def Obligations.BcdStoresThreeDigits : Prop :=
  ∀ (x : Reg) (s : State), s.mem.wf = true →
    (s.base + 2 < 4096 → ∃ t, exec (.ldBVx x) s = .next t ∧ OnlyChanges [.memory, .pc] s t ∧
      (t.mem.read s.base).toNat = (s.reg x).toNat / 100 ∧
      (t.mem.read (s.base + 1)).toNat = (s.reg x).toNat / 10 % 10 ∧
      (t.mem.read (s.base + 2)).toNat = (s.reg x).toNat % 10 ∧
      OnlyStoresIn s.base 3 s t ∧ t.pc = s.pc + 2) ∧
    (4096 ≤ s.base + 2 → exec (.ldBVx x) s = .fault (.outOfBoundsAccess (max s.base 4096)))

/-- R123: LD [I], Vx stores `V[0]` to `V[X]` at `I` to `I + X`, and nothing elsewhere; out of bounds it
raises with the lowest bad address. `I` is unchanged (D8, log 11); D29 (log 15), D14 (log 16). -/
def Obligations.StoreRegistersWritesThemInOrder : Prop :=
  ∀ (x : Reg) (s : State), s.mem.wf = true →
    (s.base + x.val < 4096 → ∃ t, exec (.storeRegs x) s = .next t ∧ OnlyChanges [.memory, .pc] s t ∧
      (∀ r : Reg, r ≤ x → t.mem.read (s.base + r.val) = s.reg r) ∧
      OnlyStoresIn s.base (x.val + 1) s t ∧ t.pc = s.pc + 2) ∧
    (4096 ≤ s.base + x.val → exec (.storeRegs x) s = .fault (.outOfBoundsAccess (max s.base 4096)))

/-- R124: LD Vx, [I] loads `V[0]` to `V[X]` from `I` to `I + X`; registers above `X` and `I` are unchanged
(D8, log 11); out of bounds it raises with the lowest bad address (D29, log 15; D14, log 16). -/
def Obligations.LoadRegistersReadsThemInOrder : Prop :=
  ∀ (x : Reg) (s : State),
    (s.base + x.val < 4096 → ∃ t, exec (.loadRegs x) s = .next t ∧ OnlyChanges [.regs, .pc] s t ∧
      (∀ r : Reg, t.reg r = if r ≤ x then s.mem.read (s.base + r.val) else s.reg r) ∧
      t.pc = s.pc + 2) ∧
    (4096 ≤ s.base + x.val → exec (.loadRegs x) s = .fault (.outOfBoundsAccess (max s.base 4096)))

/-- R54 with R123, R124: whatever a store of registers wrote, a load of as many registers brings back, in
any state with the `I` the store read and the memory it left. -/
def Obligations.StoreThenLoadRestoresRegisters : Prop :=
  ∀ (x : Reg) (s : State), s.mem.wf = true → s.base + x.val < 4096 →
    ∃ t, exec (.storeRegs x) s = .next t ∧
      ∀ u : State, u.I = s.I → (∀ a, u.mem.read a = t.mem.read a) →
        ∃ w, exec (.loadRegs x) u = .next w ∧ ∀ r : Reg, r ≤ x → w.reg r = s.reg r

/-- R57, R45, R46: two registers stored just after the store instruction are the very next instruction the
machine fetches and runs, `{V[0], V[1]}`. -/
def Obligations.StoredCodeIsFetchedNext : Prop :=
  ∀ (x : Reg) (s : State), s.mem.wf = true → s.nextEvent = .step → s.waitKey = false →
    s.pc.toNat + 1 < 4096 → s.nextInstr = .storeRegs x → 1 ≤ x.val →
    s.base = s.pc.toNat + 2 → s.base + x.val < 4096 →
    ∃ t, step s = .next t ∧ t.pc.toNat = s.base ∧
      (t.nextEvent = .step → step t = exec (decode (wordOfBytes (s.reg 0) (s.reg 1))) t.issued)

/-! ## Draw -/

/-- R109, R110 (a) and (b): DRW XORs the wrapped sprite onto the display and nothing else; VF is 1 exactly
when a pixel that was on met a 1 bit, else 0; out of bounds, with `N > 0`, it raises with the lowest bad
address. Rests on D8 (log 11), D17 (log 18), D18 (log 19), D29 (log 15) and D14 (log 16). -/
def Obligations.DrawXorsTheWrappedSprite : Prop :=
  ∀ (x y : Reg) (n : Fin 16) (s : State) (cx cy : Nat),
    cx = (s.reg x).toNat % 64 → cy = (s.reg y).toNat % 32 →
    (n.val = 0 ∨ s.base + n.val - 1 < 4096 → ∃ t, exec (.drw x y n) s = .next t ∧
      OnlyChanges [.display, .regs, .pc] s t ∧ t.pc = s.pc + 2 ∧
      (∀ k c row col, k < n.val → c < 8 → IsSpritePixel cx cy k c row col →
        t.pixel row col = (s.pixel row col ^^ (s.mem.read (s.base + k)).getLsbD (7 - c))) ∧
      (∀ row col, (∀ k c, k < n.val → c < 8 → ¬ IsSpritePixel cx cy k c row col) →
        t.pixel row col = s.pixel row col) ∧
      (∀ r, r ≠ VF → t.reg r = s.reg r) ∧ (t.reg VF = 0 ∨ t.reg VF = 1) ∧
      (t.reg VF = 1 ↔ ∃ k c row col, k < n.val ∧ c < 8 ∧ IsSpritePixel cx cy k c row col ∧
        s.pixel row col = true ∧ (s.mem.read (s.base + k)).getLsbD (7 - c) = true)) ∧
    (0 < n.val → 4096 ≤ s.base + n.val - 1 →
      exec (.drw x y n) s = .fault (.outOfBoundsAccess (max s.base 4096)))

/-- R109, R110 (c): two identical draws in succession restore the display; from a blank display the second
sets VF exactly when the sprite has a 1 bit. The first draw must not change the operands: neither is VF,
which it writes, or the coordinates modulo the display size are what they were. Rests on D8 (log 11), the
second draw reading the same `I`, and with `N = 0` on D18 (log 19).
The blank start is R109's own words ("starting from an all-off display"); R110 (c) leaves it out, and
without it the second half is false (NOTES.md, "What a reviewer should know"). -/
def Obligations.DrawTwiceRestoresTheDisplay : Prop :=
  ∀ (x y : Reg) (n : Fin 16) (s : State), n.val = 0 ∨ s.base + n.val - 1 < 4096 →
    ∃ t, exec (.drw x y n) s = .next t ∧
      ((x ≠ VF ∧ y ≠ VF) ∨ ((t.reg x).toNat % 64 = (s.reg x).toNat % 64 ∧
          (t.reg y).toNat % 32 = (s.reg y).toNat % 32) →
        ∃ u, exec (.drw x y n) t = .next u ∧ (∀ row col, u.pixel row col = s.pixel row col) ∧
          ((∀ row col, s.pixel row col = false) →
            (u.reg VF = 1 ↔ ∃ k, k < n.val ∧ s.mem.read (s.base + k) ≠ 0)))

/-! ## Waiting for a key -/

/-- R114: LD Vx, K takes the smallest pressed key at once, or suspends with `pc` unchanged (D10, D11,
log 13). -/
def Obligations.WaitForKeyResolvesOrSuspends : Prop :=
  ∀ (x : Reg) (s : State),
    (∀ k : KeyIndex, IsLowestPressed k s → ∃ t, exec (.ldVxK x) s = .next t ∧
      OnlyChanges [.regs, .pc] s t ∧ RegsAre x (BitVec.ofNat 8 k.val) s t ∧ t.pc = s.pc + 2) ∧
    ((∀ k : KeyIndex, s.keyDown k = false) → ∃ t, exec (.ldVxK x) s = .next t ∧
      OnlyChanges [.wait] s t ∧ t.waitKey = true ∧ t.waitReg = x)

/-- R115: a STEP while suspended fetches nothing; with no key pressed it changes nothing of the machine,
with one pressed it stores the smallest and resumes after the FX0A (D10, D11, log 13). The host's record
is the model's own (log 2). -/
def Obligations.PollingStepIsIdempotentUntilAKey : Prop :=
  ∀ s : State, s.nextEvent = .step → s.waitKey = true →
    (∀ k : KeyIndex, IsLowestPressed k s → ∃ t, step s = .next t ∧
      OnlyChanges [.regs, .pc, .wait, .host] s t ∧ RegsAre s.waitReg (BitVec.ofNat 8 k.val) s t ∧
      t.waitKey = false ∧ t.waitReg = s.waitReg ∧ t.pc = s.pc + 2) ∧
    ((∀ k : KeyIndex, s.keyDown k = false) → ∃ t, step s = .next t ∧ OnlyChanges [.host] s t)

/-- R115, the equivalence: a machine that forgets the wait flag before every step, and so fetches and runs
the FX0A again instead of polling, takes the same steps up to the flag, and stops where this one stops.
An inference the spec marks as its own, on D11 (log 13); it rests on the invariant, which says that the
FX0A still stands at `pc` (the contract of LOAD, log 3). The host's record is the model's own (log 2). -/
def Obligations.WaitFlagIsRedundant : Prop :=
  ∀ s : State, s.Inv →
    (∀ t, step s = .next t → ∃ u, step s.forgetWait = .next u ∧ u.forgetWait = t.forgetWait) ∧
    (∀ f, step s = .fault f → step s.forgetWait = .fault f) ∧
    (∀ r, step s = .refused r → step s.forgetWait = .refused r)

/-! ## The step -/

/-- R61, R63 to R67: a STEP that is not suspended and fetches in bounds runs the instruction that the two
bytes at `pc` decode to. Around `exec` a step only records that the host has issued a STEP (log 2, 3). -/
def Obligations.StepRunsTheDecodedInstruction : Prop :=
  ∀ (i : Instr) (s : State), s.nextEvent = .step → s.waitKey = false → s.pc.toNat + 1 < 4096 →
    decodeBytes [s.mem.read s.pc.toNat, s.mem.read (s.pc.toNat + 1)] = .ok (i, []) →
    step s = exec i (s.setHost { started := true, script := s.host.script.tail })

/-- R63, R133: a STEP that is not suspended and whose fetch is out of bounds raises with the lower bad
address of `pc` and `pc + 1` (D14, log 16). -/
def Obligations.FetchOutOfBoundsRaises : Prop :=
  ∀ s : State, s.nextEvent = .step → s.waitKey = false → 4096 ≤ s.pc.toNat + 1 →
    step s = .fault (.outOfBoundsAccess (if 4096 ≤ s.pc.toNat then s.pc.toNat else s.pc.toNat + 1))

/-- The word placed by `withFetchWord` is the one the very next step runs (the model's stand-in for a
loaded program, log 4). -/
def Obligations.FetchWordRunsNext : Prop :=
  ∀ (s : State) (nbits w : Nat), s.mem.wf = true →
    step (s.withFetchWord nbits w) =
      exec (decode (tableWord nbits w)) (s.withFetchWord nbits w).issued

/-! ## Errors -/

/-- R131 to R133, R136: an instruction raises an error in exactly these cases, and never is refused. The
info values are D14 (log 16). -/
def Obligations.InstructionsRaiseExactlyTheseErrors : Prop :=
  ∀ (i : Instr) (s : State),
    (∀ f : Fault, exec i s = .fault f ↔
      (∃ nnn, i = .call nnn ∧ s.sp.val = 16 ∧ f = .stackOverflow s.pc) ∨
      (i = .ret ∧ s.sp.val = 0 ∧ f = .stackUnderflow s.pc) ∨
      (∃ x y n, i = .drw x y n ∧ 0 < n.val ∧ 4096 ≤ s.base + n.val - 1 ∧
        f = .outOfBoundsAccess (max s.base 4096)) ∨
      (∃ x, i = .ldBVx x ∧ 4096 ≤ s.base + 2 ∧ f = .outOfBoundsAccess (max s.base 4096)) ∨
      (∃ x, (i = .storeRegs x ∨ i = .loadRegs x) ∧ 4096 ≤ s.base + x.val ∧
        f = .outOfBoundsAccess (max s.base 4096))) ∧
    (∀ r : Refusal, exec i s ≠ .refused r)

/-- R139: an error is not cured by a TICK or by any key: the same STEP raises the same error again (D13,
log 15; D27, log 15; the info value D14, log 16). -/
def Obligations.ErrorsAreNotCuredByTimersOrKeys : Prop :=
  ∀ (s : State) (f : Fault) (k : KeyIndex) (b : Bool), stepEvent s = .fault f →
    stepEvent (tickEvent s) = .fault f ∧ stepEvent (keyEvent k b s) = .fault f

/-! ## Whole-machine rules -/

/-- R20 to R27, R42, R148: which instructions may change which piece of state. That the memory instructions
and DRW leave `I` is D8 (log 11). Two clauses are about the model's own fields and no rule of the spec: only
RND takes a draw (R31, D16, log 1), and no instruction changes the host's record (log 2). -/
def Obligations.OnlyTheNamedInstructionsWrite : Prop :=
  ∀ (i : Instr) (s t : State), exec i s = .next t →
    (¬ Part.display.same s t → i = .cls ∨ ∃ x y n, i = .drw x y n) ∧
    (¬ Part.memory.same s t → ∃ x, i = .ldBVx x ∨ i = .storeRegs x) ∧
    (¬ Part.slots.same s t → ∃ nnn, i = .call nnn) ∧
    (¬ Part.stackIndex.same s t → i = .ret ∨ ∃ nnn, i = .call nnn) ∧
    (¬ Part.addressReg.same s t → ∃ x nnn, i = .ldI nnn ∨ i = .addIVx x ∨ i = .ldFVx x) ∧
    (¬ Part.delayTimer.same s t → ∃ x, i = .ldDTVx x) ∧
    (¬ Part.soundTimer.same s t → ∃ x, i = .ldSTVx x) ∧
    (¬ Part.wait.same s t → ∃ x, i = .ldVxK x) ∧
    (¬ Part.draws.same s t → ∃ x nn, i = .rnd x nn) ∧
    Part.keypad.same s t ∧ Part.host.same s t

/-- R13, R165: what may change VF: the six flag writers, and instructions that name it as their
destination. That the logic operations leave it is D22 (log 20). -/
def Obligations.OnlyFlagWritersAndDestinationsChangeVF : Prop :=
  ∀ (i : Instr) (s t : State), exec i s = .next t → t.reg VF ≠ s.reg VF →
    (∃ x y, i = .addReg x y ∨ i = .subReg x y ∨ i = .shrReg x y ∨ i = .subnReg x y ∨ i = .shlReg x y) ∨
    (∃ x y n, i = .drw x y n) ∨
    (∃ nn, i = .ldImm VF nn ∨ i = .addImm VF nn ∨ i = .rnd VF nn) ∨
    (∃ y, i = .ldReg VF y ∨ i = .orReg VF y ∨ i = .andReg VF y ∨ i = .xorReg VF y) ∨
    i = .ldVxDT VF ∨ i = .ldVxK VF ∨ i = .loadRegs VF

/-! ## Events of the host -/

/-- R143: a TICK lowers each nonzero timer by one and leaves a zero timer, and nothing else; it is
accepted in every state. The host's record is the model's own (log 2). -/
def Obligations.TickDecrementsNonzeroTimers : Prop :=
  ∀ s : State, s.nextEvent = .tick → ∃ t, step s = .next t ∧
    OnlyChanges [.delayTimer, .soundTimer, .host] s t ∧
    (s.DT.toNat ≠ 0 → t.DT.toNat = s.DT.toNat - 1) ∧ (s.DT.toNat = 0 → t.DT.toNat = 0) ∧
    (s.ST.toNat ≠ 0 → t.ST.toNat = s.ST.toNat - 1) ∧ (s.ST.toNat = 0 → t.ST.toNat = 0)

/-- R143: `n` TICKs in a row take `n` off each timer, down to 0 and never below. The schedule that holds the
TICKs, and what is left of it after them, is the model's own (log 2). -/
def Obligations.TimersCountDownToZeroAndStay : Prop :=
  ∀ (n : Nat) (rest : List HostEvent) (s : State), s.host.script = List.replicate n .tick ++ rest →
    ∃ t, RunsTo n s t ∧ t.DT.toNat = s.DT.toNat - n ∧ t.ST.toNat = s.ST.toNat - n ∧
      t.host.script = rest ∧ OnlyChanges [.delayTimer, .soundTimer, .host] s t

/-- R146: KEY sets or clears one key and changes nothing else; in particular it ends no wait. The host's
record is the model's own (log 2). -/
def Obligations.KeyEventChangesOneKey : Prop :=
  ∀ (k : KeyIndex) (b : Bool) (s : State), s.nextEvent = .key k b → ∃ t, step s = .next t ∧
    OnlyChanges [.keypad, .host] s t ∧ ∀ j : KeyIndex, t.keyDown j = if j = k then b else s.keyDown j

/-- R52: LOAD writes one byte of the program area before the first STEP; any other LOAD is refused, since
the host has no such move (D19, log 3; D1, log 6). The host's record is the model's own (log 2). -/
def Obligations.LoadWritesOneProgramByteBeforeSteps : Prop :=
  ∀ (a : Nat) (b : Byte) (s : State), s.nextEvent = .load a b → s.mem.wf = true →
    (s.host.started = false → 0x200 ≤ a → a < 4096 → ∃ t, step s = .next t ∧
      OnlyChanges [.memory, .host] s t ∧ ∀ a', t.mem.read a' = if a' = a then b else s.mem.read a') ∧
    (s.host.started = true ∨ a < 0x200 ∨ 4096 ≤ a → step s = .refused (.loadOutsideContract a))

/-- R32: a read of DISPLAY or SOUND changes nothing of the machine. The host's record is the model's own
(log 2). -/
def Obligations.ReadsChangeNothing : Prop :=
  ∀ s : State, s.nextEvent = .read → ∃ t, step s = .next t ∧ OnlyChanges [.host] s t ∧
    t.displayOut = s.disp ∧ t.soundOut = s.ST ∧ (t.soundOn = true ↔ s.ST ≠ 0)

/-- R35, R160, R161: RESET at any time sets every piece of state to its reset value: zero, `pc` at
`PROGRAM_START`, and memory zero but for the font table (D1, log 6; D2 and D20, log 5). The model's own
fields go on (log 1, 2). -/
def Obligations.ResetSetsEveryPieceOfState : Prop :=
  ∀ s : State, s.nextEvent = .reset → ∃ t, step s = .next t ∧
    (∀ r, t.reg r = 0) ∧ t.pc.toNat = 0x200 ∧ t.I = 0 ∧ (∀ k, t.slot k = 0) ∧ t.sp = 0 ∧
    t.DT = 0 ∧ t.ST = 0 ∧ (∀ row col, t.pixel row col = false) ∧ (∀ k, t.keyDown k = false) ∧
    t.waitKey = false ∧ t.waitReg = 0 ∧
    (∀ a, a < 0x50 ∨ 0xA0 ≤ a → t.mem.read a = 0) ∧
    (∀ j, j < 80 → config.fontData[j]? = some (t.mem.read (0x50 + j))) ∧
    t.draws = s.draws ∧ t.host = { started := false, script := s.host.script.tail }

/-! ## The invariant -/

/-- The state after RESET meets the invariant. -/
def Obligations.InvariantHoldsAtReset : Prop := State.reset.Inv

/-- Every event keeps the invariant: memory in canonical form; `pc` at most 4350 and every slot at most
4094, so that no write of `pc` wraps (R18, an inference the spec marks as its own); and a suspended machine
stands at its FX0A, which nothing can overwrite meanwhile (R57, R115; the contract of LOAD, log 3). -/
def Obligations.InvariantKeptByEveryEvent : Prop :=
  ∀ s t : State, s.Inv → step s = .next t → t.Inv

/-- Memories in canonical form that read alike at every address are the same data (the model's
representation of memory, log 5). -/
def Obligations.CanonicalMemoriesAreEqualWhenTheyReadAlike : Prop :=
  ∀ m m' : Memory, m.wf = true → m'.wf = true → (∀ a, m.read a = m'.read a) → m = m'

/-- R163: a program that has finished at `e` stays finished: every STEP succeeds and changes nothing but
the host's record (log 2), and no TICK, KEY or read ends it (D24, log 22). -/
def Obligations.FinishedProgramsStayFinished : Prop :=
  ∀ (e : Addr12) (s : State), FinishedAt e s →
    (s.nextEvent = .step → ∃ t, step s = .next t ∧ OnlyChanges [.host] s t) ∧
    (∀ t, s.nextEvent ≠ .reset → (∀ a b, s.nextEvent ≠ .load a b) → step s = .next t → FinishedAt e t)

/-! ## Encoding -/

/-- Decoding the word of a well-formed instruction gives the instruction back, with every operand at every
value (R64 to R68; the numbers are D3 and D4, log 7). -/
def Obligations.DecodeOfEncodeIsTheInstruction : Prop :=
  ∀ i : Instr, i.wellFormed = true → decode (encode i) = i

/-- Every word decodes to a well-formed instruction whose word it is: each word has one meaning (R67; the
numbers are D3 and D4, log 7). -/
def Obligations.EncodeOfDecodeIsTheWord : Prop :=
  ∀ w : Word16, (decode w).wellFormed = true ∧ encode (decode w) = w

/-- R67, R68: the decoder takes the row of lowest priority number among the rows of the opcode table that
match the word, and no other matching row has that number (the table is D3, log 7). -/
def Obligations.DecoderTakesTheMatchingRowOfLowestPriority : Prop :=
  ∀ w : Word16, ∃ r, opcodeTable[(decode w).rowNumber]? = some r ∧ r.hits w = true ∧
    ∀ (k : Nat) (r' : OpcodeRow), opcodeTable[k]? = some r' → r'.hits w = true →
      k ≠ (decode w).rowNumber → r.priority < r'.priority

/-- R69 to R71: the words that decode to a no-op are exactly the unrecognised ones the spec enumerates and
the legacy family (the numbers are D3, log 7). -/
def Obligations.NoOpWordsAreExactlyTheEnumeratedOnes : Prop :=
  ∀ w : Word16,
    (decode w = .nop w ↔ unrecognised w = true) ∧
    ((∃ nnn, decode w = .sys nnn) ↔ w.toNat < 4096 ∧ w ≠ 0x00E0 ∧ w ≠ 0x00EE)

/-- Words of the spec's own examples decode to the instructions they stand for, at least one of every family
(the examples of the rules of 40 to 48, and D125 of vector DR15 in 95_test_vectors.md, whose three fields
differ; the numbers are D3 and D4, log 7). -/
def Obligations.SpecExampleWordsDecode : Prop :=
  decode 0x00E0 = .cls ∧ decode 0x00EE = .ret ∧ decode 0x0123 = .sys 0x123 ∧
  decode 0x1234 = .jp 0x234 ∧ decode 0x2210 = .call 0x210 ∧ decode 0x332A = .seImm 3 0x2A ∧
  decode 0x9120 = .sneReg 1 2 ∧ decode 0x700A = .addImm 0 0x0A ∧ decode 0x8126 = .shrReg 1 2 ∧
  decode 0xA2F0 = .ldI 0x2F0 ∧ decode 0xB300 = .jpV0 0x300 ∧ decode 0xC10F = .rnd 1 0x0F ∧
  decode 0xD011 = .drw 0 1 1 ∧ decode 0xD125 = .drw 1 2 5 ∧ decode 0xE2A1 = .sknp 2 ∧
  decode 0xF30A = .ldVxK 3 ∧ decode 0xF515 = .ldDTVx 5 ∧ decode 0xF265 = .loadRegs 2 ∧ decode 0x5AB1 = .nop 0x5AB1
end

