-- ==== Sys2Proof/Laws/Decode.lean ====
section
/-!
SUPPORT. What the fields of an encoded word are, format by format (30_encoding.md R64 to R66), so that no
proof about decoding needs the arithmetic of a word again.
-/

namespace Sys2Proof

/-- A nibble by its arithmetic. -/
theorem nibble_val (w : Word16) (k : Nat) : (nibble w k).val = w.toNat / 16 ^ k % 16 := rfl

/-! ## Fields of any word, and the family dispatch -/

theorem nibble_family (w : Word16) : (nibble w 3).val = w.toNat / 4096 := by
  have := w.isLt
  rw [nibble_val]
  omega

theorem nibble_last (w : Word16) : (nibble w 0).val = w.toNat % 16 := by
  rw [nibble_val]
  omega

theorem fieldX_val (w : Word16) : (fieldX w).val = w.toNat / 256 % 16 := rfl

theorem fieldY_val (w : Word16) : (fieldY w).val = w.toNat / 16 % 16 := rfl

theorem fieldN_val (w : Word16) : (fieldN w).val = w.toNat % 16 := nibble_last w

theorem fieldNN_toNat (w : Word16) : (fieldNN w).toNat = w.toNat % 256 := BitVec.toNat_ofNat _ _

theorem fieldNNN_toNat (w : Word16) : (fieldNNN w).toNat = w.toNat % 4096 := BitVec.toNat_ofNat _ _

theorem fieldNN_eq_iff (w : Word16) (c : Byte) : fieldNN w = c ↔ w.toNat % 256 = c.toNat := by
  rw [← BitVec.toNat_inj, fieldNN_toNat]

/-- What the decoder does with a word, by its family (30_encoding.md R67, R68). -/
theorem decode_cases (w : Word16) :
    (w.toNat / 4096 = 0 ∧ decode w = decodeFamily0 w) ∨
    (w.toNat / 4096 = 1 ∧ decode w = .jp (fieldNNN w)) ∨
    (w.toNat / 4096 = 2 ∧ decode w = .call (fieldNNN w)) ∨
    (w.toNat / 4096 = 3 ∧ decode w = .seImm (fieldX w) (fieldNN w)) ∨
    (w.toNat / 4096 = 4 ∧ decode w = .sneImm (fieldX w) (fieldNN w)) ∨
    (w.toNat / 4096 = 5 ∧ decode w = decodeFamily5 w) ∨
    (w.toNat / 4096 = 6 ∧ decode w = .ldImm (fieldX w) (fieldNN w)) ∨
    (w.toNat / 4096 = 7 ∧ decode w = .addImm (fieldX w) (fieldNN w)) ∨
    (w.toNat / 4096 = 8 ∧ decode w = decodeFamily8 w) ∨
    (w.toNat / 4096 = 9 ∧ decode w = decodeFamily9 w) ∨
    (w.toNat / 4096 = 10 ∧ decode w = .ldI (fieldNNN w)) ∨
    (w.toNat / 4096 = 11 ∧ decode w = .jpV0 (fieldNNN w)) ∨
    (w.toNat / 4096 = 12 ∧ decode w = .rnd (fieldX w) (fieldNN w)) ∨
    (w.toNat / 4096 = 13 ∧ decode w = .drw (fieldX w) (fieldY w) (fieldN w)) ∨
    (w.toNat / 4096 = 14 ∧ decode w = decodeFamilyE w) ∨
    (w.toNat / 4096 = 15 ∧ decode w = decodeFamilyF w) := by
  have hlt := w.isLt
  have key : ∀ k, w.toNat / 4096 = k → (nibble w 3).val = k := fun k h => (nibble_family w).trans h
  obtain ⟨k, hk⟩ : ∃ k, w.toNat / 4096 = k := ⟨_, rfl⟩
  have hk' := key k hk
  rw [hk]
  have : k < 16 := by omega
  clear hk key hlt
  interval_cases k <;> simp [decode, hk']

/-! ## Format NNN -/

theorem encodeNNN_toNat {f : Nat} (hf : f < 16) (nnn : Addr12) :
    (encodeNNN f nnn).toNat = f * 4096 + nnn.toNat := by
  have := nnn.isLt
  rw [encodeNNN, BitVec.toNat_ofNat, Nat.mod_eq_of_lt (by omega)]

theorem encodeNNN_family {f : Nat} (hf : f < 16) (nnn : Addr12) :
    (nibble (encodeNNN f nnn) 3).val = f := by
  have := nnn.isLt
  rw [nibble_val, encodeNNN_toNat hf]
  omega

theorem encodeNNN_fieldNNN {f : Nat} (hf : f < 16) (nnn : Addr12) :
    fieldNNN (encodeNNN f nnn) = nnn := by
  have := nnn.isLt
  apply BitVec.eq_of_toNat_eq
  rw [fieldNNN, encodeNNN_toNat hf, BitVec.toNat_ofNat]
  omega

/-! ## Format XNN -/

theorem encodeXNN_toNat {f : Nat} (hf : f < 16) (x : Reg) (nn : Byte) :
    (encodeXNN f x nn).toNat = f * 4096 + x.val * 256 + nn.toNat := by
  have := nn.isLt
  rw [encodeXNN, BitVec.toNat_ofNat, Nat.mod_eq_of_lt (by omega)]

theorem encodeXNN_family {f : Nat} (hf : f < 16) (x : Reg) (nn : Byte) :
    (nibble (encodeXNN f x nn) 3).val = f := by
  have := nn.isLt
  rw [nibble_val, encodeXNN_toNat hf]
  omega

theorem encodeXNN_fieldX {f : Nat} (hf : f < 16) (x : Reg) (nn : Byte) :
    fieldX (encodeXNN f x nn) = x := by
  have := nn.isLt
  apply Fin.ext
  rw [fieldX, nibble_val, encodeXNN_toNat hf]
  omega

theorem encodeXNN_fieldNN {f : Nat} (hf : f < 16) (x : Reg) (nn : Byte) :
    fieldNN (encodeXNN f x nn) = nn := by
  have := nn.isLt
  apply BitVec.eq_of_toNat_eq
  rw [fieldNN, encodeXNN_toNat hf, BitVec.toNat_ofNat]
  omega

/-! ## Formats XYO and XYN -/

theorem encodeXYN_toNat {f o : Nat} (hf : f < 16) (ho : o < 16) (x y : Reg) :
    (encodeXYN f x y o).toNat = f * 4096 + x.val * 256 + y.val * 16 + o := by
  rw [encodeXYN, BitVec.toNat_ofNat, Nat.mod_eq_of_lt (by omega)]

theorem encodeXYN_family {f o : Nat} (hf : f < 16) (ho : o < 16) (x y : Reg) :
    (nibble (encodeXYN f x y o) 3).val = f := by
  rw [nibble_val, encodeXYN_toNat hf ho]
  omega

theorem encodeXYN_fieldX {f o : Nat} (hf : f < 16) (ho : o < 16) (x y : Reg) :
    fieldX (encodeXYN f x y o) = x := by
  apply Fin.ext
  rw [fieldX, nibble_val, encodeXYN_toNat hf ho]
  omega

theorem encodeXYN_fieldY {f o : Nat} (hf : f < 16) (ho : o < 16) (x y : Reg) :
    fieldY (encodeXYN f x y o) = y := by
  apply Fin.ext
  rw [fieldY, nibble_val, encodeXYN_toNat hf ho]
  omega

theorem encodeXYN_last {f o : Nat} (hf : f < 16) (ho : o < 16) (x y : Reg) :
    (nibble (encodeXYN f x y o) 0).val = o := by
  rw [nibble_val, encodeXYN_toNat hf ho]
  omega

/-! ## Format XOO -/

theorem encodeXOO_toNat {f oo : Nat} (hf : f < 16) (hoo : oo < 256) (x : Reg) :
    (encodeXOO f x oo).toNat = f * 4096 + x.val * 256 + oo := by
  rw [encodeXOO, BitVec.toNat_ofNat, Nat.mod_eq_of_lt (by omega)]

theorem encodeXOO_family {f oo : Nat} (hf : f < 16) (hoo : oo < 256) (x : Reg) :
    (nibble (encodeXOO f x oo) 3).val = f := by
  rw [nibble_val, encodeXOO_toNat hf hoo]
  omega

theorem encodeXOO_fieldX {f oo : Nat} (hf : f < 16) (hoo : oo < 256) (x : Reg) :
    fieldX (encodeXOO f x oo) = x := by
  apply Fin.ext
  rw [fieldX, nibble_val, encodeXOO_toNat hf hoo]
  omega

theorem encodeXOO_fieldNN {f oo : Nat} (hf : f < 16) (hoo : oo < 256) (x : Reg) :
    fieldNN (encodeXOO f x oo) = BitVec.ofNat 8 oo := by
  apply BitVec.eq_of_toNat_eq
  rw [fieldNN, encodeXOO_toNat hf hoo, BitVec.toNat_ofNat, BitVec.toNat_ofNat]
  omega

end Sys2Proof
end

