-- ==== Sys2Proof/Laws/State.lean ====
section
/-!
SUPPORT. One lemma per update and field: what each named update leaves and what it writes, all true by
rfl. Updates that touch one entry of a vector have their lemmas in Laws/Registers.lean.
-/

namespace Sys2Proof.Machine

variable (s : State)


/-! ## `setPc` -/

@[simp] theorem State.setPc_mem (a : Word16) : (s.setPc a).mem = s.mem := rfl
@[simp] theorem State.setPc_V (a : Word16) : (s.setPc a).V = s.V := rfl
@[simp] theorem State.setPc_pc (a : Word16) : (s.setPc a).pc = a := rfl
@[simp] theorem State.setPc_I (a : Word16) : (s.setPc a).I = s.I := rfl
@[simp] theorem State.setPc_stack (a : Word16) : (s.setPc a).stack = s.stack := rfl
@[simp] theorem State.setPc_sp (a : Word16) : (s.setPc a).sp = s.sp := rfl
@[simp] theorem State.setPc_DT (a : Word16) : (s.setPc a).DT = s.DT := rfl
@[simp] theorem State.setPc_ST (a : Word16) : (s.setPc a).ST = s.ST := rfl
@[simp] theorem State.setPc_disp (a : Word16) : (s.setPc a).disp = s.disp := rfl
@[simp] theorem State.setPc_keys (a : Word16) : (s.setPc a).keys = s.keys := rfl
@[simp] theorem State.setPc_waitKey (a : Word16) : (s.setPc a).waitKey = s.waitKey := rfl
@[simp] theorem State.setPc_waitReg (a : Word16) : (s.setPc a).waitReg = s.waitReg := rfl
@[simp] theorem State.setPc_draws (a : Word16) : (s.setPc a).draws = s.draws := rfl
@[simp] theorem State.setPc_host (a : Word16) : (s.setPc a).host = s.host := rfl
@[simp] theorem State.setPc_reg (a : Word16) (r : Reg) : (s.setPc a).reg r = s.reg r := rfl
@[simp] theorem State.setPc_slot (a : Word16) (k : Fin 16) : (s.setPc a).slot k = s.slot k := rfl
@[simp] theorem State.setPc_pixel (a : Word16) (row : Fin 32) (col : Fin 64) : (s.setPc a).pixel row col = s.pixel row col := rfl
@[simp] theorem State.setPc_keyDown (a : Word16) (k : KeyIndex) : (s.setPc a).keyDown k = s.keyDown k := rfl

/-! ## `setI` -/

@[simp] theorem State.setI_mem (a : Word16) : (s.setI a).mem = s.mem := rfl
@[simp] theorem State.setI_V (a : Word16) : (s.setI a).V = s.V := rfl
@[simp] theorem State.setI_pc (a : Word16) : (s.setI a).pc = s.pc := rfl
@[simp] theorem State.setI_I (a : Word16) : (s.setI a).I = a := rfl
@[simp] theorem State.setI_stack (a : Word16) : (s.setI a).stack = s.stack := rfl
@[simp] theorem State.setI_sp (a : Word16) : (s.setI a).sp = s.sp := rfl
@[simp] theorem State.setI_DT (a : Word16) : (s.setI a).DT = s.DT := rfl
@[simp] theorem State.setI_ST (a : Word16) : (s.setI a).ST = s.ST := rfl
@[simp] theorem State.setI_disp (a : Word16) : (s.setI a).disp = s.disp := rfl
@[simp] theorem State.setI_keys (a : Word16) : (s.setI a).keys = s.keys := rfl
@[simp] theorem State.setI_waitKey (a : Word16) : (s.setI a).waitKey = s.waitKey := rfl
@[simp] theorem State.setI_waitReg (a : Word16) : (s.setI a).waitReg = s.waitReg := rfl
@[simp] theorem State.setI_draws (a : Word16) : (s.setI a).draws = s.draws := rfl
@[simp] theorem State.setI_host (a : Word16) : (s.setI a).host = s.host := rfl
@[simp] theorem State.setI_reg (a : Word16) (r : Reg) : (s.setI a).reg r = s.reg r := rfl
@[simp] theorem State.setI_slot (a : Word16) (k : Fin 16) : (s.setI a).slot k = s.slot k := rfl
@[simp] theorem State.setI_pixel (a : Word16) (row : Fin 32) (col : Fin 64) : (s.setI a).pixel row col = s.pixel row col := rfl
@[simp] theorem State.setI_keyDown (a : Word16) (k : KeyIndex) : (s.setI a).keyDown k = s.keyDown k := rfl

/-! ## `setDT` -/

@[simp] theorem State.setDT_mem (b : Byte) : (s.setDT b).mem = s.mem := rfl
@[simp] theorem State.setDT_V (b : Byte) : (s.setDT b).V = s.V := rfl
@[simp] theorem State.setDT_pc (b : Byte) : (s.setDT b).pc = s.pc := rfl
@[simp] theorem State.setDT_I (b : Byte) : (s.setDT b).I = s.I := rfl
@[simp] theorem State.setDT_stack (b : Byte) : (s.setDT b).stack = s.stack := rfl
@[simp] theorem State.setDT_sp (b : Byte) : (s.setDT b).sp = s.sp := rfl
@[simp] theorem State.setDT_DT (b : Byte) : (s.setDT b).DT = b := rfl
@[simp] theorem State.setDT_ST (b : Byte) : (s.setDT b).ST = s.ST := rfl
@[simp] theorem State.setDT_disp (b : Byte) : (s.setDT b).disp = s.disp := rfl
@[simp] theorem State.setDT_keys (b : Byte) : (s.setDT b).keys = s.keys := rfl
@[simp] theorem State.setDT_waitKey (b : Byte) : (s.setDT b).waitKey = s.waitKey := rfl
@[simp] theorem State.setDT_waitReg (b : Byte) : (s.setDT b).waitReg = s.waitReg := rfl
@[simp] theorem State.setDT_draws (b : Byte) : (s.setDT b).draws = s.draws := rfl
@[simp] theorem State.setDT_host (b : Byte) : (s.setDT b).host = s.host := rfl
@[simp] theorem State.setDT_reg (b : Byte) (r : Reg) : (s.setDT b).reg r = s.reg r := rfl
@[simp] theorem State.setDT_slot (b : Byte) (k : Fin 16) : (s.setDT b).slot k = s.slot k := rfl
@[simp] theorem State.setDT_pixel (b : Byte) (row : Fin 32) (col : Fin 64) : (s.setDT b).pixel row col = s.pixel row col := rfl
@[simp] theorem State.setDT_keyDown (b : Byte) (k : KeyIndex) : (s.setDT b).keyDown k = s.keyDown k := rfl

/-! ## `setST` -/

@[simp] theorem State.setST_mem (b : Byte) : (s.setST b).mem = s.mem := rfl
@[simp] theorem State.setST_V (b : Byte) : (s.setST b).V = s.V := rfl
@[simp] theorem State.setST_pc (b : Byte) : (s.setST b).pc = s.pc := rfl
@[simp] theorem State.setST_I (b : Byte) : (s.setST b).I = s.I := rfl
@[simp] theorem State.setST_stack (b : Byte) : (s.setST b).stack = s.stack := rfl
@[simp] theorem State.setST_sp (b : Byte) : (s.setST b).sp = s.sp := rfl
@[simp] theorem State.setST_DT (b : Byte) : (s.setST b).DT = s.DT := rfl
@[simp] theorem State.setST_ST (b : Byte) : (s.setST b).ST = b := rfl
@[simp] theorem State.setST_disp (b : Byte) : (s.setST b).disp = s.disp := rfl
@[simp] theorem State.setST_keys (b : Byte) : (s.setST b).keys = s.keys := rfl
@[simp] theorem State.setST_waitKey (b : Byte) : (s.setST b).waitKey = s.waitKey := rfl
@[simp] theorem State.setST_waitReg (b : Byte) : (s.setST b).waitReg = s.waitReg := rfl
@[simp] theorem State.setST_draws (b : Byte) : (s.setST b).draws = s.draws := rfl
@[simp] theorem State.setST_host (b : Byte) : (s.setST b).host = s.host := rfl
@[simp] theorem State.setST_reg (b : Byte) (r : Reg) : (s.setST b).reg r = s.reg r := rfl
@[simp] theorem State.setST_slot (b : Byte) (k : Fin 16) : (s.setST b).slot k = s.slot k := rfl
@[simp] theorem State.setST_pixel (b : Byte) (row : Fin 32) (col : Fin 64) : (s.setST b).pixel row col = s.pixel row col := rfl
@[simp] theorem State.setST_keyDown (b : Byte) (k : KeyIndex) : (s.setST b).keyDown k = s.keyDown k := rfl

/-! ## `setMem` -/

@[simp] theorem State.setMem_mem (m : Memory) : (s.setMem m).mem = m := rfl
@[simp] theorem State.setMem_V (m : Memory) : (s.setMem m).V = s.V := rfl
@[simp] theorem State.setMem_pc (m : Memory) : (s.setMem m).pc = s.pc := rfl
@[simp] theorem State.setMem_I (m : Memory) : (s.setMem m).I = s.I := rfl
@[simp] theorem State.setMem_stack (m : Memory) : (s.setMem m).stack = s.stack := rfl
@[simp] theorem State.setMem_sp (m : Memory) : (s.setMem m).sp = s.sp := rfl
@[simp] theorem State.setMem_DT (m : Memory) : (s.setMem m).DT = s.DT := rfl
@[simp] theorem State.setMem_ST (m : Memory) : (s.setMem m).ST = s.ST := rfl
@[simp] theorem State.setMem_disp (m : Memory) : (s.setMem m).disp = s.disp := rfl
@[simp] theorem State.setMem_keys (m : Memory) : (s.setMem m).keys = s.keys := rfl
@[simp] theorem State.setMem_waitKey (m : Memory) : (s.setMem m).waitKey = s.waitKey := rfl
@[simp] theorem State.setMem_waitReg (m : Memory) : (s.setMem m).waitReg = s.waitReg := rfl
@[simp] theorem State.setMem_draws (m : Memory) : (s.setMem m).draws = s.draws := rfl
@[simp] theorem State.setMem_host (m : Memory) : (s.setMem m).host = s.host := rfl
@[simp] theorem State.setMem_reg (m : Memory) (r : Reg) : (s.setMem m).reg r = s.reg r := rfl
@[simp] theorem State.setMem_slot (m : Memory) (k : Fin 16) : (s.setMem m).slot k = s.slot k := rfl
@[simp] theorem State.setMem_pixel (m : Memory) (row : Fin 32) (col : Fin 64) : (s.setMem m).pixel row col = s.pixel row col := rfl
@[simp] theorem State.setMem_keyDown (m : Memory) (k : KeyIndex) : (s.setMem m).keyDown k = s.keyDown k := rfl

/-! ## `setDisp` -/

@[simp] theorem State.setDisp_mem (d : Display) : (s.setDisp d).mem = s.mem := rfl
@[simp] theorem State.setDisp_V (d : Display) : (s.setDisp d).V = s.V := rfl
@[simp] theorem State.setDisp_pc (d : Display) : (s.setDisp d).pc = s.pc := rfl
@[simp] theorem State.setDisp_I (d : Display) : (s.setDisp d).I = s.I := rfl
@[simp] theorem State.setDisp_stack (d : Display) : (s.setDisp d).stack = s.stack := rfl
@[simp] theorem State.setDisp_sp (d : Display) : (s.setDisp d).sp = s.sp := rfl
@[simp] theorem State.setDisp_DT (d : Display) : (s.setDisp d).DT = s.DT := rfl
@[simp] theorem State.setDisp_ST (d : Display) : (s.setDisp d).ST = s.ST := rfl
@[simp] theorem State.setDisp_disp (d : Display) : (s.setDisp d).disp = d := rfl
@[simp] theorem State.setDisp_keys (d : Display) : (s.setDisp d).keys = s.keys := rfl
@[simp] theorem State.setDisp_waitKey (d : Display) : (s.setDisp d).waitKey = s.waitKey := rfl
@[simp] theorem State.setDisp_waitReg (d : Display) : (s.setDisp d).waitReg = s.waitReg := rfl
@[simp] theorem State.setDisp_draws (d : Display) : (s.setDisp d).draws = s.draws := rfl
@[simp] theorem State.setDisp_host (d : Display) : (s.setDisp d).host = s.host := rfl
@[simp] theorem State.setDisp_reg (d : Display) (r : Reg) : (s.setDisp d).reg r = s.reg r := rfl
@[simp] theorem State.setDisp_slot (d : Display) (k : Fin 16) : (s.setDisp d).slot k = s.slot k := rfl
@[simp] theorem State.setDisp_keyDown (d : Display) (k : KeyIndex) : (s.setDisp d).keyDown k = s.keyDown k := rfl

/-! ## `setKey` -/

@[simp] theorem State.setKey_mem (k' : KeyIndex) (b : Bool) : (s.setKey k' b).mem = s.mem := rfl
@[simp] theorem State.setKey_V (k' : KeyIndex) (b : Bool) : (s.setKey k' b).V = s.V := rfl
@[simp] theorem State.setKey_pc (k' : KeyIndex) (b : Bool) : (s.setKey k' b).pc = s.pc := rfl
@[simp] theorem State.setKey_I (k' : KeyIndex) (b : Bool) : (s.setKey k' b).I = s.I := rfl
@[simp] theorem State.setKey_stack (k' : KeyIndex) (b : Bool) : (s.setKey k' b).stack = s.stack := rfl
@[simp] theorem State.setKey_sp (k' : KeyIndex) (b : Bool) : (s.setKey k' b).sp = s.sp := rfl
@[simp] theorem State.setKey_DT (k' : KeyIndex) (b : Bool) : (s.setKey k' b).DT = s.DT := rfl
@[simp] theorem State.setKey_ST (k' : KeyIndex) (b : Bool) : (s.setKey k' b).ST = s.ST := rfl
@[simp] theorem State.setKey_disp (k' : KeyIndex) (b : Bool) : (s.setKey k' b).disp = s.disp := rfl
@[simp] theorem State.setKey_waitKey (k' : KeyIndex) (b : Bool) : (s.setKey k' b).waitKey = s.waitKey := rfl
@[simp] theorem State.setKey_waitReg (k' : KeyIndex) (b : Bool) : (s.setKey k' b).waitReg = s.waitReg := rfl
@[simp] theorem State.setKey_draws (k' : KeyIndex) (b : Bool) : (s.setKey k' b).draws = s.draws := rfl
@[simp] theorem State.setKey_host (k' : KeyIndex) (b : Bool) : (s.setKey k' b).host = s.host := rfl
@[simp] theorem State.setKey_reg (k' : KeyIndex) (b : Bool) (r : Reg) : (s.setKey k' b).reg r = s.reg r := rfl
@[simp] theorem State.setKey_slot (k' : KeyIndex) (b : Bool) (k : Fin 16) : (s.setKey k' b).slot k = s.slot k := rfl
@[simp] theorem State.setKey_pixel (k' : KeyIndex) (b : Bool) (row : Fin 32) (col : Fin 64) : (s.setKey k' b).pixel row col = s.pixel row col := rfl

/-! ## `setWait` -/

@[simp] theorem State.setWait_mem (x : Reg) : (s.setWait x).mem = s.mem := rfl
@[simp] theorem State.setWait_V (x : Reg) : (s.setWait x).V = s.V := rfl
@[simp] theorem State.setWait_pc (x : Reg) : (s.setWait x).pc = s.pc := rfl
@[simp] theorem State.setWait_I (x : Reg) : (s.setWait x).I = s.I := rfl
@[simp] theorem State.setWait_stack (x : Reg) : (s.setWait x).stack = s.stack := rfl
@[simp] theorem State.setWait_sp (x : Reg) : (s.setWait x).sp = s.sp := rfl
@[simp] theorem State.setWait_DT (x : Reg) : (s.setWait x).DT = s.DT := rfl
@[simp] theorem State.setWait_ST (x : Reg) : (s.setWait x).ST = s.ST := rfl
@[simp] theorem State.setWait_disp (x : Reg) : (s.setWait x).disp = s.disp := rfl
@[simp] theorem State.setWait_keys (x : Reg) : (s.setWait x).keys = s.keys := rfl
@[simp] theorem State.setWait_waitKey (x : Reg) : (s.setWait x).waitKey = true := rfl
@[simp] theorem State.setWait_waitReg (x : Reg) : (s.setWait x).waitReg = x := rfl
@[simp] theorem State.setWait_draws (x : Reg) : (s.setWait x).draws = s.draws := rfl
@[simp] theorem State.setWait_host (x : Reg) : (s.setWait x).host = s.host := rfl
@[simp] theorem State.setWait_reg (x : Reg) (r : Reg) : (s.setWait x).reg r = s.reg r := rfl
@[simp] theorem State.setWait_slot (x : Reg) (k : Fin 16) : (s.setWait x).slot k = s.slot k := rfl
@[simp] theorem State.setWait_pixel (x : Reg) (row : Fin 32) (col : Fin 64) : (s.setWait x).pixel row col = s.pixel row col := rfl
@[simp] theorem State.setWait_keyDown (x : Reg) (k : KeyIndex) : (s.setWait x).keyDown k = s.keyDown k := rfl

/-! ## `clearWait` -/

@[simp] theorem State.clearWait_mem : (s.clearWait).mem = s.mem := rfl
@[simp] theorem State.clearWait_V : (s.clearWait).V = s.V := rfl
@[simp] theorem State.clearWait_pc : (s.clearWait).pc = s.pc := rfl
@[simp] theorem State.clearWait_I : (s.clearWait).I = s.I := rfl
@[simp] theorem State.clearWait_stack : (s.clearWait).stack = s.stack := rfl
@[simp] theorem State.clearWait_sp : (s.clearWait).sp = s.sp := rfl
@[simp] theorem State.clearWait_DT : (s.clearWait).DT = s.DT := rfl
@[simp] theorem State.clearWait_ST : (s.clearWait).ST = s.ST := rfl
@[simp] theorem State.clearWait_disp : (s.clearWait).disp = s.disp := rfl
@[simp] theorem State.clearWait_keys : (s.clearWait).keys = s.keys := rfl
@[simp] theorem State.clearWait_waitKey : (s.clearWait).waitKey = false := rfl
@[simp] theorem State.clearWait_waitReg : (s.clearWait).waitReg = s.waitReg := rfl
@[simp] theorem State.clearWait_draws : (s.clearWait).draws = s.draws := rfl
@[simp] theorem State.clearWait_host : (s.clearWait).host = s.host := rfl
@[simp] theorem State.clearWait_reg (r : Reg) : (s.clearWait).reg r = s.reg r := rfl
@[simp] theorem State.clearWait_slot (k : Fin 16) : (s.clearWait).slot k = s.slot k := rfl
@[simp] theorem State.clearWait_pixel (row : Fin 32) (col : Fin 64) : (s.clearWait).pixel row col = s.pixel row col := rfl
@[simp] theorem State.clearWait_keyDown (k : KeyIndex) : (s.clearWait).keyDown k = s.keyDown k := rfl

/-! ## `takeDraw` -/

@[simp] theorem State.takeDraw_mem : (s.takeDraw).mem = s.mem := rfl
@[simp] theorem State.takeDraw_V : (s.takeDraw).V = s.V := rfl
@[simp] theorem State.takeDraw_pc : (s.takeDraw).pc = s.pc := rfl
@[simp] theorem State.takeDraw_I : (s.takeDraw).I = s.I := rfl
@[simp] theorem State.takeDraw_stack : (s.takeDraw).stack = s.stack := rfl
@[simp] theorem State.takeDraw_sp : (s.takeDraw).sp = s.sp := rfl
@[simp] theorem State.takeDraw_DT : (s.takeDraw).DT = s.DT := rfl
@[simp] theorem State.takeDraw_ST : (s.takeDraw).ST = s.ST := rfl
@[simp] theorem State.takeDraw_disp : (s.takeDraw).disp = s.disp := rfl
@[simp] theorem State.takeDraw_keys : (s.takeDraw).keys = s.keys := rfl
@[simp] theorem State.takeDraw_waitKey : (s.takeDraw).waitKey = s.waitKey := rfl
@[simp] theorem State.takeDraw_waitReg : (s.takeDraw).waitReg = s.waitReg := rfl
@[simp] theorem State.takeDraw_draws : (s.takeDraw).draws = s.draws + 1 := rfl
@[simp] theorem State.takeDraw_host : (s.takeDraw).host = s.host := rfl
@[simp] theorem State.takeDraw_reg (r : Reg) : (s.takeDraw).reg r = s.reg r := rfl
@[simp] theorem State.takeDraw_slot (k : Fin 16) : (s.takeDraw).slot k = s.slot k := rfl
@[simp] theorem State.takeDraw_pixel (row : Fin 32) (col : Fin 64) : (s.takeDraw).pixel row col = s.pixel row col := rfl
@[simp] theorem State.takeDraw_keyDown (k : KeyIndex) : (s.takeDraw).keyDown k = s.keyDown k := rfl

/-! ## `setHost` -/

@[simp] theorem State.setHost_mem (h : HostAgent) : (s.setHost h).mem = s.mem := rfl
@[simp] theorem State.setHost_V (h : HostAgent) : (s.setHost h).V = s.V := rfl
@[simp] theorem State.setHost_pc (h : HostAgent) : (s.setHost h).pc = s.pc := rfl
@[simp] theorem State.setHost_I (h : HostAgent) : (s.setHost h).I = s.I := rfl
@[simp] theorem State.setHost_stack (h : HostAgent) : (s.setHost h).stack = s.stack := rfl
@[simp] theorem State.setHost_sp (h : HostAgent) : (s.setHost h).sp = s.sp := rfl
@[simp] theorem State.setHost_DT (h : HostAgent) : (s.setHost h).DT = s.DT := rfl
@[simp] theorem State.setHost_ST (h : HostAgent) : (s.setHost h).ST = s.ST := rfl
@[simp] theorem State.setHost_disp (h : HostAgent) : (s.setHost h).disp = s.disp := rfl
@[simp] theorem State.setHost_keys (h : HostAgent) : (s.setHost h).keys = s.keys := rfl
@[simp] theorem State.setHost_waitKey (h : HostAgent) : (s.setHost h).waitKey = s.waitKey := rfl
@[simp] theorem State.setHost_waitReg (h : HostAgent) : (s.setHost h).waitReg = s.waitReg := rfl
@[simp] theorem State.setHost_draws (h : HostAgent) : (s.setHost h).draws = s.draws := rfl
@[simp] theorem State.setHost_host (h : HostAgent) : (s.setHost h).host = h := rfl
@[simp] theorem State.setHost_reg (h : HostAgent) (r : Reg) : (s.setHost h).reg r = s.reg r := rfl
@[simp] theorem State.setHost_slot (h : HostAgent) (k : Fin 16) : (s.setHost h).slot k = s.slot k := rfl
@[simp] theorem State.setHost_pixel (h : HostAgent) (row : Fin 32) (col : Fin 64) : (s.setHost h).pixel row col = s.pixel row col := rfl
@[simp] theorem State.setHost_keyDown (h : HostAgent) (k : KeyIndex) : (s.setHost h).keyDown k = s.keyDown k := rfl

/-! ## `setReg` -/

@[simp] theorem State.setReg_mem (x : Reg) (b : Byte) : (s.setReg x b).mem = s.mem := rfl
@[simp] theorem State.setReg_pc (x : Reg) (b : Byte) : (s.setReg x b).pc = s.pc := rfl
@[simp] theorem State.setReg_I (x : Reg) (b : Byte) : (s.setReg x b).I = s.I := rfl
@[simp] theorem State.setReg_stack (x : Reg) (b : Byte) : (s.setReg x b).stack = s.stack := rfl
@[simp] theorem State.setReg_sp (x : Reg) (b : Byte) : (s.setReg x b).sp = s.sp := rfl
@[simp] theorem State.setReg_DT (x : Reg) (b : Byte) : (s.setReg x b).DT = s.DT := rfl
@[simp] theorem State.setReg_ST (x : Reg) (b : Byte) : (s.setReg x b).ST = s.ST := rfl
@[simp] theorem State.setReg_disp (x : Reg) (b : Byte) : (s.setReg x b).disp = s.disp := rfl
@[simp] theorem State.setReg_keys (x : Reg) (b : Byte) : (s.setReg x b).keys = s.keys := rfl
@[simp] theorem State.setReg_waitKey (x : Reg) (b : Byte) : (s.setReg x b).waitKey = s.waitKey := rfl
@[simp] theorem State.setReg_waitReg (x : Reg) (b : Byte) : (s.setReg x b).waitReg = s.waitReg := rfl
@[simp] theorem State.setReg_draws (x : Reg) (b : Byte) : (s.setReg x b).draws = s.draws := rfl
@[simp] theorem State.setReg_host (x : Reg) (b : Byte) : (s.setReg x b).host = s.host := rfl
@[simp] theorem State.setReg_slot (x : Reg) (b : Byte) (k : Fin 16) : (s.setReg x b).slot k = s.slot k := rfl
@[simp] theorem State.setReg_pixel (x : Reg) (b : Byte) (row : Fin 32) (col : Fin 64) : (s.setReg x b).pixel row col = s.pixel row col := rfl
@[simp] theorem State.setReg_keyDown (x : Reg) (b : Byte) (k : KeyIndex) : (s.setReg x b).keyDown k = s.keyDown k := rfl

/-! ## `push` -/

@[simp] theorem State.push_mem (a : Word16) : (s.push a).mem = s.mem := rfl
@[simp] theorem State.push_V (a : Word16) : (s.push a).V = s.V := rfl
@[simp] theorem State.push_pc (a : Word16) : (s.push a).pc = s.pc := rfl
@[simp] theorem State.push_I (a : Word16) : (s.push a).I = s.I := rfl
@[simp] theorem State.push_sp (a : Word16) : (s.push a).sp = stackIndex (s.sp.val + 1) := rfl
@[simp] theorem State.push_DT (a : Word16) : (s.push a).DT = s.DT := rfl
@[simp] theorem State.push_ST (a : Word16) : (s.push a).ST = s.ST := rfl
@[simp] theorem State.push_disp (a : Word16) : (s.push a).disp = s.disp := rfl
@[simp] theorem State.push_keys (a : Word16) : (s.push a).keys = s.keys := rfl
@[simp] theorem State.push_waitKey (a : Word16) : (s.push a).waitKey = s.waitKey := rfl
@[simp] theorem State.push_waitReg (a : Word16) : (s.push a).waitReg = s.waitReg := rfl
@[simp] theorem State.push_draws (a : Word16) : (s.push a).draws = s.draws := rfl
@[simp] theorem State.push_host (a : Word16) : (s.push a).host = s.host := rfl
@[simp] theorem State.push_reg (a : Word16) (r : Reg) : (s.push a).reg r = s.reg r := rfl
@[simp] theorem State.push_pixel (a : Word16) (row : Fin 32) (col : Fin 64) : (s.push a).pixel row col = s.pixel row col := rfl
@[simp] theorem State.push_keyDown (a : Word16) (k : KeyIndex) : (s.push a).keyDown k = s.keyDown k := rfl

/-! ## `pop` -/

@[simp] theorem State.pop_mem : (s.pop).mem = s.mem := rfl
@[simp] theorem State.pop_V : (s.pop).V = s.V := rfl
@[simp] theorem State.pop_pc : (s.pop).pc = s.pc := rfl
@[simp] theorem State.pop_I : (s.pop).I = s.I := rfl
@[simp] theorem State.pop_stack : (s.pop).stack = s.stack := rfl
@[simp] theorem State.pop_sp : (s.pop).sp = stackIndex (s.sp.val - 1) := rfl
@[simp] theorem State.pop_DT : (s.pop).DT = s.DT := rfl
@[simp] theorem State.pop_ST : (s.pop).ST = s.ST := rfl
@[simp] theorem State.pop_disp : (s.pop).disp = s.disp := rfl
@[simp] theorem State.pop_keys : (s.pop).keys = s.keys := rfl
@[simp] theorem State.pop_waitKey : (s.pop).waitKey = s.waitKey := rfl
@[simp] theorem State.pop_waitReg : (s.pop).waitReg = s.waitReg := rfl
@[simp] theorem State.pop_draws : (s.pop).draws = s.draws := rfl
@[simp] theorem State.pop_host : (s.pop).host = s.host := rfl
@[simp] theorem State.pop_reg (r : Reg) : (s.pop).reg r = s.reg r := rfl
@[simp] theorem State.pop_slot (k : Fin 16) : (s.pop).slot k = s.slot k := rfl
@[simp] theorem State.pop_pixel (row : Fin 32) (col : Fin 64) : (s.pop).pixel row col = s.pixel row col := rfl
@[simp] theorem State.pop_keyDown (k : KeyIndex) : (s.pop).keyDown k = s.keyDown k := rfl

/-! ## `next` -/

@[simp] theorem State.next_mem : (s.next).mem = s.mem := rfl
@[simp] theorem State.next_V : (s.next).V = s.V := rfl
@[simp] theorem State.next_pc : (s.next).pc = s.pc + 2 := rfl
@[simp] theorem State.next_I : (s.next).I = s.I := rfl
@[simp] theorem State.next_stack : (s.next).stack = s.stack := rfl
@[simp] theorem State.next_sp : (s.next).sp = s.sp := rfl
@[simp] theorem State.next_DT : (s.next).DT = s.DT := rfl
@[simp] theorem State.next_ST : (s.next).ST = s.ST := rfl
@[simp] theorem State.next_disp : (s.next).disp = s.disp := rfl
@[simp] theorem State.next_keys : (s.next).keys = s.keys := rfl
@[simp] theorem State.next_waitKey : (s.next).waitKey = s.waitKey := rfl
@[simp] theorem State.next_waitReg : (s.next).waitReg = s.waitReg := rfl
@[simp] theorem State.next_draws : (s.next).draws = s.draws := rfl
@[simp] theorem State.next_host : (s.next).host = s.host := rfl
@[simp] theorem State.next_reg (r : Reg) : (s.next).reg r = s.reg r := rfl
@[simp] theorem State.next_slot (k : Fin 16) : (s.next).slot k = s.slot k := rfl
@[simp] theorem State.next_pixel (row : Fin 32) (col : Fin 64) : (s.next).pixel row col = s.pixel row col := rfl
@[simp] theorem State.next_keyDown (k : KeyIndex) : (s.next).keyDown k = s.keyDown k := rfl

/-! ## `skip` -/

@[simp] theorem State.skip_mem : (s.skip).mem = s.mem := rfl
@[simp] theorem State.skip_V : (s.skip).V = s.V := rfl
@[simp] theorem State.skip_pc : (s.skip).pc = s.pc + 4 := rfl
@[simp] theorem State.skip_I : (s.skip).I = s.I := rfl
@[simp] theorem State.skip_stack : (s.skip).stack = s.stack := rfl
@[simp] theorem State.skip_sp : (s.skip).sp = s.sp := rfl
@[simp] theorem State.skip_DT : (s.skip).DT = s.DT := rfl
@[simp] theorem State.skip_ST : (s.skip).ST = s.ST := rfl
@[simp] theorem State.skip_disp : (s.skip).disp = s.disp := rfl
@[simp] theorem State.skip_keys : (s.skip).keys = s.keys := rfl
@[simp] theorem State.skip_waitKey : (s.skip).waitKey = s.waitKey := rfl
@[simp] theorem State.skip_waitReg : (s.skip).waitReg = s.waitReg := rfl
@[simp] theorem State.skip_draws : (s.skip).draws = s.draws := rfl
@[simp] theorem State.skip_host : (s.skip).host = s.host := rfl
@[simp] theorem State.skip_reg (r : Reg) : (s.skip).reg r = s.reg r := rfl
@[simp] theorem State.skip_slot (k : Fin 16) : (s.skip).slot k = s.slot k := rfl
@[simp] theorem State.skip_pixel (row : Fin 32) (col : Fin 64) : (s.skip).pixel row col = s.pixel row col := rfl
@[simp] theorem State.skip_keyDown (k : KeyIndex) : (s.skip).keyDown k = s.keyDown k := rfl

/-! ## `skipIf`: only `pc` changes -/

@[simp] theorem State.skipIf_mem (c : Bool) : (s.skipIf c).mem = s.mem := by cases c <;> rfl
@[simp] theorem State.skipIf_V (c : Bool) : (s.skipIf c).V = s.V := by cases c <;> rfl
@[simp] theorem State.skipIf_I (c : Bool) : (s.skipIf c).I = s.I := by cases c <;> rfl
@[simp] theorem State.skipIf_stack (c : Bool) : (s.skipIf c).stack = s.stack := by cases c <;> rfl
@[simp] theorem State.skipIf_sp (c : Bool) : (s.skipIf c).sp = s.sp := by cases c <;> rfl
@[simp] theorem State.skipIf_DT (c : Bool) : (s.skipIf c).DT = s.DT := by cases c <;> rfl
@[simp] theorem State.skipIf_ST (c : Bool) : (s.skipIf c).ST = s.ST := by cases c <;> rfl
@[simp] theorem State.skipIf_disp (c : Bool) : (s.skipIf c).disp = s.disp := by cases c <;> rfl
@[simp] theorem State.skipIf_keys (c : Bool) : (s.skipIf c).keys = s.keys := by cases c <;> rfl
@[simp] theorem State.skipIf_waitKey (c : Bool) : (s.skipIf c).waitKey = s.waitKey := by cases c <;> rfl
@[simp] theorem State.skipIf_waitReg (c : Bool) : (s.skipIf c).waitReg = s.waitReg := by cases c <;> rfl
@[simp] theorem State.skipIf_draws (c : Bool) : (s.skipIf c).draws = s.draws := by cases c <;> rfl
@[simp] theorem State.skipIf_host (c : Bool) : (s.skipIf c).host = s.host := by cases c <;> rfl
@[simp] theorem State.skipIf_reg (c : Bool) (r : Reg) : (s.skipIf c).reg r = s.reg r := by
  cases c <;> rfl
@[simp] theorem State.skipIf_slot (c : Bool) (k : Fin 16) : (s.skipIf c).slot k = s.slot k := by
  cases c <;> rfl
@[simp] theorem State.skipIf_pixel (c : Bool) (row : Fin 32) (col : Fin 64) : (s.skipIf c).pixel row col = s.pixel row col := by
  cases c <;> rfl
@[simp] theorem State.skipIf_keyDown (c : Bool) (k : KeyIndex) : (s.skipIf c).keyDown k = s.keyDown k := by
  cases c <;> rfl
/-- The skip law for `pc` (41_skips.md R92). -/
@[simp] theorem State.skipIf_pc (c : Bool) : (s.skipIf c).pc = if c then s.pc + 4 else s.pc + 2 := by
  cases c <;> rfl

/-! ## `setResultThenFlag`: only registers change -/

@[simp] theorem State.setResultThenFlag_mem (x : Reg) (b : Byte) (c : Bool) :
    (s.setResultThenFlag x b c).mem = s.mem := rfl
@[simp] theorem State.setResultThenFlag_pc (x : Reg) (b : Byte) (c : Bool) :
    (s.setResultThenFlag x b c).pc = s.pc := rfl
@[simp] theorem State.setResultThenFlag_I (x : Reg) (b : Byte) (c : Bool) :
    (s.setResultThenFlag x b c).I = s.I := rfl
@[simp] theorem State.setResultThenFlag_stack (x : Reg) (b : Byte) (c : Bool) :
    (s.setResultThenFlag x b c).stack = s.stack := rfl
@[simp] theorem State.setResultThenFlag_sp (x : Reg) (b : Byte) (c : Bool) :
    (s.setResultThenFlag x b c).sp = s.sp := rfl
@[simp] theorem State.setResultThenFlag_DT (x : Reg) (b : Byte) (c : Bool) :
    (s.setResultThenFlag x b c).DT = s.DT := rfl
@[simp] theorem State.setResultThenFlag_ST (x : Reg) (b : Byte) (c : Bool) :
    (s.setResultThenFlag x b c).ST = s.ST := rfl
@[simp] theorem State.setResultThenFlag_disp (x : Reg) (b : Byte) (c : Bool) :
    (s.setResultThenFlag x b c).disp = s.disp := rfl
@[simp] theorem State.setResultThenFlag_keys (x : Reg) (b : Byte) (c : Bool) :
    (s.setResultThenFlag x b c).keys = s.keys := rfl
@[simp] theorem State.setResultThenFlag_waitKey (x : Reg) (b : Byte) (c : Bool) :
    (s.setResultThenFlag x b c).waitKey = s.waitKey := rfl
@[simp] theorem State.setResultThenFlag_waitReg (x : Reg) (b : Byte) (c : Bool) :
    (s.setResultThenFlag x b c).waitReg = s.waitReg := rfl
@[simp] theorem State.setResultThenFlag_draws (x : Reg) (b : Byte) (c : Bool) :
    (s.setResultThenFlag x b c).draws = s.draws := rfl
@[simp] theorem State.setResultThenFlag_host (x : Reg) (b : Byte) (c : Bool) :
    (s.setResultThenFlag x b c).host = s.host := rfl
@[simp] theorem State.setResultThenFlag_slot (x : Reg) (b : Byte) (c : Bool) (k : Fin 16) :
    (s.setResultThenFlag x b c).slot k = s.slot k := rfl
@[simp] theorem State.setResultThenFlag_pixel (x : Reg) (b : Byte) (c : Bool) (row : Fin 32) (col : Fin 64) :
    (s.setResultThenFlag x b c).pixel row col = s.pixel row col := rfl
@[simp] theorem State.setResultThenFlag_keyDown (x : Reg) (b : Byte) (c : Bool) (k : KeyIndex) :
    (s.setResultThenFlag x b c).keyDown k = s.keyDown k := rfl

/-! ## `setRegsFrom`: only registers change -/

@[simp] theorem State.setRegsFrom_mem (r : Nat) (bs : List Byte) : (s.setRegsFrom r bs).mem = s.mem := by
  induction bs generalizing s r with
  | nil => rfl
  | cons b bs ih => exact ih _ _
@[simp] theorem State.setRegsFrom_pc (r : Nat) (bs : List Byte) : (s.setRegsFrom r bs).pc = s.pc := by
  induction bs generalizing s r with
  | nil => rfl
  | cons b bs ih => exact ih _ _
@[simp] theorem State.setRegsFrom_I (r : Nat) (bs : List Byte) : (s.setRegsFrom r bs).I = s.I := by
  induction bs generalizing s r with
  | nil => rfl
  | cons b bs ih => exact ih _ _
@[simp] theorem State.setRegsFrom_stack (r : Nat) (bs : List Byte) : (s.setRegsFrom r bs).stack = s.stack := by
  induction bs generalizing s r with
  | nil => rfl
  | cons b bs ih => exact ih _ _
@[simp] theorem State.setRegsFrom_sp (r : Nat) (bs : List Byte) : (s.setRegsFrom r bs).sp = s.sp := by
  induction bs generalizing s r with
  | nil => rfl
  | cons b bs ih => exact ih _ _
@[simp] theorem State.setRegsFrom_DT (r : Nat) (bs : List Byte) : (s.setRegsFrom r bs).DT = s.DT := by
  induction bs generalizing s r with
  | nil => rfl
  | cons b bs ih => exact ih _ _
@[simp] theorem State.setRegsFrom_ST (r : Nat) (bs : List Byte) : (s.setRegsFrom r bs).ST = s.ST := by
  induction bs generalizing s r with
  | nil => rfl
  | cons b bs ih => exact ih _ _
@[simp] theorem State.setRegsFrom_disp (r : Nat) (bs : List Byte) : (s.setRegsFrom r bs).disp = s.disp := by
  induction bs generalizing s r with
  | nil => rfl
  | cons b bs ih => exact ih _ _
@[simp] theorem State.setRegsFrom_keys (r : Nat) (bs : List Byte) : (s.setRegsFrom r bs).keys = s.keys := by
  induction bs generalizing s r with
  | nil => rfl
  | cons b bs ih => exact ih _ _
@[simp] theorem State.setRegsFrom_waitKey (r : Nat) (bs : List Byte) : (s.setRegsFrom r bs).waitKey = s.waitKey := by
  induction bs generalizing s r with
  | nil => rfl
  | cons b bs ih => exact ih _ _
@[simp] theorem State.setRegsFrom_waitReg (r : Nat) (bs : List Byte) : (s.setRegsFrom r bs).waitReg = s.waitReg := by
  induction bs generalizing s r with
  | nil => rfl
  | cons b bs ih => exact ih _ _
@[simp] theorem State.setRegsFrom_draws (r : Nat) (bs : List Byte) : (s.setRegsFrom r bs).draws = s.draws := by
  induction bs generalizing s r with
  | nil => rfl
  | cons b bs ih => exact ih _ _
@[simp] theorem State.setRegsFrom_host (r : Nat) (bs : List Byte) : (s.setRegsFrom r bs).host = s.host := by
  induction bs generalizing s r with
  | nil => rfl
  | cons b bs ih => exact ih _ _
@[simp] theorem State.setRegsFrom_slot (r : Nat) (bs : List Byte) (k : Fin 16) :
    (s.setRegsFrom r bs).slot k = s.slot k := by simp [State.slot]
@[simp] theorem State.setRegsFrom_pixel (r : Nat) (bs : List Byte) (row : Fin 32) (col : Fin 64) :
    (s.setRegsFrom r bs).pixel row col = s.pixel row col := by simp [State.pixel]
@[simp] theorem State.setRegsFrom_keyDown (r : Nat) (bs : List Byte) (k : KeyIndex) :
    (s.setRegsFrom r bs).keyDown k = s.keyDown k := by simp [State.keyDown]

end Sys2Proof.Machine
end

