-- ==== Sys2Proof/Laws/Registers.lean ====
section
/-!
SUPPORT. Read after write for the vectors of the state: variable registers, call stack, display, keypad;
and what the register transfers and the search for a pressed key do.
-/

namespace Sys2Proof.Machine

variable (s : State)

@[simp] theorem stackIndex_val (n : Nat) : (stackIndex n).val = n % 17 := rfl

@[simp] theorem wrapRow_val (n : Nat) : (wrapRow n).val = n % 32 := rfl

@[simp] theorem wrapCol_val (n : Nat) : (wrapCol n).val = n % 64 := rfl

/-! ## Variable registers -/

/-- Reading a register after one is written. -/
@[simp] theorem State.setReg_reg (x : Reg) (b : Byte) (r : Reg) :
    (s.setReg x b).reg r = if r = x then b else s.reg r := by
  simp only [State.reg, State.setReg, Vector.getElem_set, Fin.ext_iff, eq_comm (a := x.val)]

/-- Reading a register after result and flag are written: the flag wins at VF (43_alu.md R95 (3)). -/
@[simp] theorem State.setResultThenFlag_reg (x : Reg) (b : Byte) (c : Bool) (r : Reg) :
    (s.setResultThenFlag x b c).reg r = if r = VF then flagByte c else if r = x then b else s.reg r := by
  simp [State.setResultThenFlag]

/-- Reading a register after a run of registers is written. -/
theorem State.setRegsFrom_reg (k : Nat) (bs : List Byte) (hk : k + bs.length ≤ 16) (r : Reg) :
    (s.setRegsFrom k bs).reg r =
      if h : k ≤ r.val ∧ r.val - k < bs.length then bs[r.val - k]'h.2 else s.reg r := by
  induction bs generalizing s k with
  | nil => simp [State.setRegsFrom]
  | cons b bs ih =>
    simp only [List.length_cons] at hk
    rw [State.setRegsFrom, ih _ _ (by omega), State.setReg_reg]
    have hr : r = index16 k ↔ r.val = k := by
      rw [Fin.ext_iff, index16_val, Nat.mod_eq_of_lt (by omega)]
    simp only [hr, List.length_cons]
    by_cases h1 : r.val = k
    · simp [h1]
    · by_cases h2 : k + 1 ≤ r.val
      · have e : r.val - k = (r.val - (k + 1)) + 1 := by omega
        by_cases h3 : r.val - (k + 1) < bs.length
        · rw [dif_pos ⟨h2, h3⟩, dif_pos (by omega)]
          simp [e]
        · rw [dif_neg (by omega), dif_neg (by omega), if_neg h1]
      · rw [dif_neg (by omega), dif_neg (by omega), if_neg h1]

/-- The registers read for a store: how many. -/
@[simp] theorem State.regsFrom_length (k n : Nat) : (s.regsFrom k n).length = n := by
  induction n generalizing k with
  | zero => rfl
  | succ n ih => simp [State.regsFrom, ih]

/-- The registers read for a store: which. -/
theorem State.regsFrom_getElem (k n j : Nat) (h : j < (s.regsFrom k n).length) :
    (s.regsFrom k n)[j] = s.reg (index16 (k + j)) := by
  induction n generalizing k j with
  | zero => simp at h
  | succ n ih =>
    cases j with
    | zero => rfl
    | succ j =>
      simp only [State.regsFrom, List.getElem_cons_succ]
      rw [ih, show k + 1 + j = k + (j + 1) by omega]

/-! ## Call stack -/

/-- Reading a slot after a push below capacity. -/
theorem State.push_slot (a : Word16) (h : s.sp.val < 16) (k : Fin 16) :
    (s.push a).slot k = if k.val = s.sp.val then a else s.slot k := by
  have hf : s.freeSlot.val = s.sp.val := by rw [State.freeSlot, index16_val, Nat.mod_eq_of_lt h]
  simp only [State.slot, State.push, Vector.getElem_set, hf, eq_comm (a := s.sp.val)]

/-- The stack index after a push below capacity. -/
theorem State.push_sp_val (a : Word16) (h : s.sp.val < 16) : (s.push a).sp.val = s.sp.val + 1 := by
  simp only [State.push_sp, stackIndex_val]
  omega

/-- The stack index after a pop. -/
theorem State.pop_sp_val : s.pop.sp.val = s.sp.val - 1 := by
  have := s.sp.isLt
  simp only [State.pop_sp, stackIndex_val]
  omega

/-- The slot last pushed, when there is one. -/
theorem State.topSlot_val : s.topSlot.val = s.sp.val - 1 := by
  have := s.sp.isLt
  simp only [State.topSlot, index16_val]
  omega

/-! ## Display -/

/-- Reading a pixel after one is toggled. -/
theorem Display.pixel_flip (d : Display) (row : Fin 32) (col : Fin 64) (row' : Fin 32) (col' : Fin 64) :
    (d.flip row col).pixel row' col' =
      (d.pixel row' col' ^^ decide (row' = row ∧ col' = col)) := by
  by_cases h1 : row' = row
  · subst h1
    by_cases h2 : col' = col
    · subst h2
      simp [Display.pixel, Display.flip]
    · have h3 : col.val ≠ col'.val := fun e => h2 (Fin.ext e.symm)
      simp [Display.pixel, Display.flip, h2, h3]
  · have h3 : row.val ≠ row'.val := fun e => h1 (Fin.ext e.symm)
    simp [Display.pixel, Display.flip, h1, h3]

/-- Every pixel of the blank display is off. -/
@[simp] theorem Display.pixel_blank (row : Fin 32) (col : Fin 64) : Display.blank.pixel row col = false := by
  simp [Display.blank, Display.pixel]

/-- Displays that agree pixel by pixel are equal. -/
theorem Display.ext_pixel {d e : Display} (h : ∀ row col, d.pixel row col = e.pixel row col) : d = e := by
  apply Vector.ext
  intro i hi
  apply Vector.ext
  intro j hj
  exact h ⟨i, hi⟩ ⟨j, hj⟩

/-- Reading a pixel of the state after the display is replaced. -/
@[simp] theorem State.setDisp_pixel (d : Display) (row : Fin 32) (col : Fin 64) :
    (s.setDisp d).pixel row col = d.pixel row col := rfl

/-! ## Keypad -/

/-- Reading a key after one changes. -/
@[simp] theorem State.setKey_keyDown (k : KeyIndex) (b : Bool) (j : KeyIndex) :
    (s.setKey k b).keyDown j = if j = k then b else s.keyDown j := by
  simp only [State.keyDown, State.setKey, Vector.getElem_set, Fin.ext_iff, eq_comm (a := k.val)]

/-- What the search for a pressed key finds from `k` upward. -/
theorem State.lowestPressedFrom_cases (k fuel : Nat) (h : k + fuel ≤ 16) :
    (∃ j : KeyIndex, s.lowestPressedFrom k fuel = some j ∧ s.keyDown j = true ∧ k ≤ j.val ∧
      ∀ i : KeyIndex, k ≤ i.val → i.val < j.val → s.keyDown i = false) ∨
    (s.lowestPressedFrom k fuel = none ∧
      ∀ i : KeyIndex, k ≤ i.val → i.val < k + fuel → s.keyDown i = false) := by
  induction fuel generalizing k with
  | zero => exact .inr ⟨rfl, fun i h1 h2 => absurd h2 (by omega)⟩
  | succ n ih =>
    have hk : (index16 k).val = k := by rw [index16_val, Nat.mod_eq_of_lt (by omega)]
    cases hd : s.keyDown (index16 k) with
    | true =>
      refine .inl ⟨index16 k, by rw [State.lowestPressedFrom, if_pos hd], hd, by omega, ?_⟩
      intro i h1 h2
      omega
    | false =>
      have step : ∀ i : KeyIndex, k ≤ i.val → ¬ k + 1 ≤ i.val → s.keyDown i = false := by
        intro i h1 h2
        have : i = index16 k := Fin.ext (by omega)
        rw [this, hd]
      have eq : s.lowestPressedFrom k (n + 1) = s.lowestPressedFrom (k + 1) n := by
        rw [State.lowestPressedFrom, if_neg (by simp [hd])]
      rcases ih (k + 1) (by omega) with ⟨j, e, hj, hkj, hlow⟩ | ⟨e, hlow⟩
      · refine .inl ⟨j, by rw [eq, e], hj, by omega, fun i h1 h2 => ?_⟩
        by_cases h3 : k + 1 ≤ i.val
        · exact hlow i h3 h2
        · exact step i h1 h3
      · refine .inr ⟨by rw [eq, e], fun i h1 h2 => ?_⟩
        by_cases h3 : k + 1 ≤ i.val
        · exact hlow i h3 (by omega)
        · exact step i h1 h3

/-- The search for a pressed key says once what it can say: the smallest pressed key, or that none is. -/
theorem State.lowestPressed_cases :
    (∃ j : KeyIndex, s.lowestPressed = some j ∧ s.keyDown j = true ∧
      ∀ i : KeyIndex, i < j → s.keyDown i = false) ∨
    (s.lowestPressed = none ∧ ∀ i : KeyIndex, s.keyDown i = false) := by
  rcases s.lowestPressedFrom_cases 0 16 (by omega) with ⟨j, e, hj, -, hlow⟩ | ⟨e, hlow⟩
  · exact .inl ⟨j, e, hj, fun i hi => hlow i (by omega) hi⟩
  · exact .inr ⟨e, fun i => hlow i (by omega) (by omega)⟩

/-- The search depends on the keypad only. -/
theorem State.lowestPressed_congr {s t : State} (h : ∀ k, t.keyDown k = s.keyDown k) :
    t.lowestPressed = s.lowestPressed := by
  have go : ∀ fuel k, t.lowestPressedFrom k fuel = s.lowestPressedFrom k fuel := by
    intro fuel
    induction fuel with
    | zero => intro k; rfl
    | succ n ih => intro k; simp only [State.lowestPressedFrom, h, ih]
  exact go 16 0

end Sys2Proof.Machine
end

