-- ==== Sys2Proof/Laws/Draw.lean ====
section
/-!
SUPPORT. Draw sprite: what one row, and then the whole sprite, does to every pixel and to the collision
bit (45_draw.md R109, R110). No pixel is touched twice.
-/

namespace Sys2Proof.Machine

/-- Does the sprite row `b` at start column `cx` have a 1 bit at column `col` among its first `k`
columns. -/
def rowBit (b : Byte) (cx k : Nat) (col : Fin 64) : Bool :=
  (List.range k).any fun c => decide (col = wrapCol (cx + c)) && b.getLsbD (7 - c)

/-- Does a sprite of rows `bs`, the first at row number `r`, have a 1 bit at a pixel. -/
def spriteBit (cx cy r : Nat) (row : Fin 32) (col : Fin 64) : List Byte → Bool
  | [] => false
  | b :: bs => (decide (row = wrapRow (cy + r)) && rowBit b cx 8 col) ||
      spriteBit cx cy (r + 1) row col bs

/-- Two different columns of one sprite row are different columns of the display. -/
theorem col_ne {cx c c' : Nat} (h : c < 8) (h' : c' < 8) (hne : c ≠ c') :
    wrapCol (cx + c) ≠ wrapCol (cx + c') := by
  simp only [ne_eq, Fin.ext_iff, wrapCol_val]
  omega

/-- Two different rows of one sprite are different rows of the display. -/
theorem row_ne {cy r r' : Nat} (h : r < 32) (h' : r' < 32) (hne : r ≠ r') :
    wrapRow (cy + r) ≠ wrapRow (cy + r') := by
  simp only [ne_eq, Fin.ext_iff, wrapRow_val]
  omega

/-- Column `k` is none of the first `k` columns. -/
theorem rowBit_at (b : Byte) (cx : Nat) {k : Nat} (hk : k < 8) :
    rowBit b cx k (wrapCol (cx + k)) = false := by
  simp only [rowBit, List.any_eq_false, List.mem_range, Bool.and_eq_true, decide_eq_true_eq, not_and]
  intro c hc he
  exact absurd he (col_ne hk (by omega) (by omega))

/-- The first `k + 1` columns are the first `k` and column `k`. -/
theorem rowBit_succ (b : Byte) (cx k : Nat) (col : Fin 64) :
    rowBit b cx (k + 1) col =
      (rowBit b cx k col || (decide (col = wrapCol (cx + k)) && b.getLsbD (7 - k))) := by
  simp [rowBit, List.range_succ, List.any_append]

/-- One row: every pixel is XORed with the row's bit there. -/
theorem Canvas.plotRow_upto_pixel (cv : Canvas) (b : Byte) (row : Fin 32) (cx k : Nat) (hk : k ≤ 8)
    (row' : Fin 32) (col' : Fin 64) :
    ((List.range k).foldl (Canvas.plotBit b row cx) cv).disp.pixel row' col' =
      (cv.disp.pixel row' col' ^^ (decide (row' = row) && rowBit b cx k col')) := by
  induction k with
  | zero => simp [rowBit]
  | succ k ih =>
    rw [List.range_succ, List.foldl_append, rowBit_succ]
    simp only [List.foldl_cons, List.foldl_nil, Canvas.plotBit]
    have hat := rowBit_at b cx (k := k) (by omega)
    cases hb : b.getLsbD (7 - k) with
    | false => simp only [Bool.false_eq_true, if_false, ih (by omega), Bool.and_false, Bool.or_false]
    | true =>
      rw [if_pos rfl]
      simp only [Canvas.plot, Display.pixel_flip, ih (by omega), Bool.and_true]
      by_cases h1 : row' = row
      · by_cases h2 : col' = wrapCol (cx + k)
        · subst h2
          rw [hat]
          simp [h1]
        · simp only [h1, h2, and_false, decide_false, Bool.or_false, Bool.xor_false]
      · simp [h1]

/-- One row: the collision bit. -/
theorem Canvas.plotRow_upto_hit (cv : Canvas) (b : Byte) (row : Fin 32) (cx k : Nat) (hk : k ≤ 8) :
    ((List.range k).foldl (Canvas.plotBit b row cx) cv).hit = true ↔
      cv.hit = true ∨ ∃ c < k, b.getLsbD (7 - c) = true ∧
        cv.disp.pixel row (wrapCol (cx + c)) = true := by
  induction k with
  | zero => simp
  | succ k ih =>
    rw [List.range_succ, List.foldl_append]
    simp only [List.foldl_cons, List.foldl_nil, Canvas.plotBit]
    have split : ∀ P : Nat → Prop, (∃ c < k + 1, P c) ↔ (∃ c < k, P c) ∨ P k := by
      intro P
      constructor
      · rintro ⟨c, hc, hp⟩
        by_cases e : c = k
        · exact .inr (e ▸ hp)
        · exact .inl ⟨c, by omega, hp⟩
      · rintro (⟨c, hc, hp⟩ | hp)
        · exact ⟨c, by omega, hp⟩
        · exact ⟨k, by omega, hp⟩
    cases hb : b.getLsbD (7 - k) with
    | false =>
      rw [if_neg (by simp), split]
      simp only [ih (by omega), hb, Bool.false_eq_true, false_and, or_false]
    | true =>
      rw [if_pos rfl, split]
      simp only [Canvas.plot, Bool.or_eq_true, ih (by omega), hb, true_and]
      rw [Canvas.plotRow_upto_pixel cv b row cx k (by omega), rowBit_at b cx (by omega)]
      simp [or_assoc]

/-- One sprite row: every pixel. -/
theorem Canvas.plotRow_pixel (cv : Canvas) (b : Byte) (row : Fin 32) (cx : Nat) (row' : Fin 32)
    (col' : Fin 64) :
    (cv.plotRow b row cx).disp.pixel row' col' =
      (cv.disp.pixel row' col' ^^ (decide (row' = row) && rowBit b cx 8 col')) :=
  Canvas.plotRow_upto_pixel cv b row cx 8 (by omega) row' col'

/-- One sprite row: the collision bit. -/
theorem Canvas.plotRow_hit (cv : Canvas) (b : Byte) (row : Fin 32) (cx : Nat) :
    (cv.plotRow b row cx).hit = true ↔
      cv.hit = true ∨ ∃ c < 8, b.getLsbD (7 - c) = true ∧
        cv.disp.pixel row (wrapCol (cx + c)) = true :=
  Canvas.plotRow_upto_hit cv b row cx 8 (by omega)

/-- A row before the sprite's first row holds none of its bits. -/
theorem spriteBit_before (cx cy : Nat) {r r' : Nat} (bs : List Byte) (hr : r + bs.length ≤ 32)
    (h : r' < r) (col : Fin 64) : spriteBit cx cy r (wrapRow (cy + r')) col bs = false := by
  induction bs generalizing r with
  | nil => rfl
  | cons b bs ih =>
    simp only [List.length_cons] at hr
    rw [spriteBit, ih (by omega) (by omega), Bool.or_false, Bool.and_eq_false_iff]
    exact .inl (decide_eq_false (row_ne (by omega) (by omega) (by omega)))

/-- The whole sprite: every pixel is XORed with the sprite's bit there (R110 (a)). -/
theorem Canvas.plotRows_pixel (cv : Canvas) (cx cy r : Nat) (bs : List Byte) (hr : r + bs.length ≤ 32)
    (row : Fin 32) (col : Fin 64) :
    (cv.plotRows cx cy r bs).disp.pixel row col =
      (cv.disp.pixel row col ^^ spriteBit cx cy r row col bs) := by
  induction bs generalizing cv r with
  | nil => simp [Canvas.plotRows, spriteBit]
  | cons b bs ih =>
    simp only [List.length_cons] at hr
    rw [Canvas.plotRows, ih _ _ (by omega), Canvas.plotRow_pixel, spriteBit]
    by_cases h : row = wrapRow (cy + r)
    · subst h
      rw [spriteBit_before cx cy bs (by omega) (by omega)]
      simp
    · simp [h]

/-- The bit of a sprite at the pixel of its row `k` and column `c`: bit `7 - c` of byte `k`. -/
theorem spriteBit_at (cx cy r : Nat) (bs : List Byte) (hr : r + bs.length ≤ 32) (k c : Nat)
    (hk : k < bs.length) (hc : c < 8) :
    spriteBit cx cy r (wrapRow (cy + (r + k))) (wrapCol (cx + c)) bs =
      (bs[k]).getLsbD (7 - c) := by
  induction bs generalizing r k with
  | nil => simp at hk
  | cons b bs ih =>
    simp only [List.length_cons] at hr hk
    rw [spriteBit]
    cases k with
    | zero =>
      rw [Nat.add_zero, spriteBit_before cx cy bs (by omega) (by omega)]
      simp only [decide_true, Bool.true_and, Bool.or_false, List.getElem_cons_zero]
      rw [Bool.eq_iff_iff, rowBit, List.any_eq_true]
      simp only [List.mem_range, Bool.and_eq_true, decide_eq_true_eq]
      constructor
      · rintro ⟨c', hc', he, hb⟩
        have : c = c' := Classical.byContradiction fun hne => col_ne hc hc' hne he
        exact this ▸ hb
      · exact fun hb => ⟨c, hc, rfl, hb⟩
    | succ k =>
      have hne := row_ne (cy := cy) (r := r + (k + 1)) (r' := r) (by omega) (by omega) (by omega)
      rw [decide_eq_false hne, Bool.false_and, Bool.false_or, show r + (k + 1) = r + 1 + k by omega,
        ih (r + 1) (by omega) k (by omega)]
      rfl

/-- A pixel that is no row and column of the sprite has none of its bits. -/
theorem spriteBit_off (cx cy r : Nat) (bs : List Byte) (row : Fin 32) (col : Fin 64)
    (h : ∀ k c, k < bs.length → c < 8 →
      ¬ (row = wrapRow (cy + (r + k)) ∧ col = wrapCol (cx + c))) :
    spriteBit cx cy r row col bs = false := by
  induction bs generalizing r with
  | nil => rfl
  | cons b bs ih =>
    rw [spriteBit, ih (r + 1) ?_, Bool.or_false]
    · rw [Bool.and_eq_false_iff]
      by_cases hrow : row = wrapRow (cy + r)
      · refine .inr ?_
        simp only [rowBit, List.any_eq_false, List.mem_range, Bool.and_eq_true, decide_eq_true_eq,
          not_and]
        intro c hc he
        exact absurd ⟨hrow, he⟩ (h 0 c (by simp) hc)
      · exact .inl (decide_eq_false hrow)
    · intro k c hk hc
      rw [show r + 1 + k = r + (k + 1) by omega]
      exact h (k + 1) c (by simpa using hk) hc

/-- The whole sprite: the collision bit says that some pixel that was on has a sprite bit
(R110 (b)). -/
theorem Canvas.plotRows_hit (cv : Canvas) (cx cy r : Nat) (bs : List Byte) (hr : r + bs.length ≤ 32) :
    (cv.plotRows cx cy r bs).hit = true ↔
      cv.hit = true ∨ ∃ k c, ∃ hk : k < bs.length, c < 8 ∧ (bs[k]'hk).getLsbD (7 - c) = true ∧
        cv.disp.pixel (wrapRow (cy + (r + k))) (wrapCol (cx + c)) = true := by
  induction bs generalizing cv r with
  | nil => simp [Canvas.plotRows]
  | cons b bs ih =>
    simp only [List.length_cons] at hr
    rw [Canvas.plotRows, ih _ _ (by omega), Canvas.plotRow_hit]
    have keep : ∀ k c, k < bs.length →
        (cv.plotRow b (wrapRow (cy + r)) cx).disp.pixel (wrapRow (cy + (r + 1 + k)))
          (wrapCol (cx + c)) =
        cv.disp.pixel (wrapRow (cy + (r + 1 + k))) (wrapCol (cx + c)) := by
      intro k c hk
      have hne := row_ne (cy := cy) (r := r + 1 + k) (r' := r) (by omega) (by omega) (by omega)
      rw [Canvas.plotRow_pixel, decide_eq_false hne, Bool.false_and, Bool.xor_false]
    constructor
    · rintro ((h | ⟨c, hc, hb, hp⟩) | ⟨k, c, hk, hc, hb, hp⟩)
      · exact .inl h
      · exact .inr ⟨0, c, by simp, hc, hb, by simpa using hp⟩
      · refine .inr ⟨k + 1, c, by simpa using hk, hc, by simpa using hb, ?_⟩
        rw [keep k c hk] at hp
        rw [show r + (k + 1) = r + 1 + k by omega]
        exact hp
    · rintro (h | ⟨k, c, hk, hc, hb, hp⟩)
      · exact .inl (.inl h)
      · cases k with
        | zero => exact .inl (.inr ⟨c, hc, hb, by simpa using hp⟩)
        | succ k =>
          have hk' : k < bs.length := by simpa using hk
          refine .inr ⟨k, c, hk', hc, by simpa using hb, ?_⟩
          rw [keep k c hk', show r + 1 + k = r + (k + 1) by omega]
          exact hp

end Sys2Proof.Machine
end

