-- ==== Sys2Proof/Laws/Memory.lean ====
section
/-!
SUPPORT. Memory: read after write, the canonical form and that every operation keeps it, bounds.
-/

namespace Sys2Proof.Machine

/-! ## The canonical form -/

/-- The form from a higher address is the form from a lower one. -/
theorem Memory.wfFrom_mono {lo lo' : Nat} (h : lo' ≤ lo) {m : Memory} (hm : Memory.wfFrom lo m = true) :
    Memory.wfFrom lo' m = true := by
  cases m with
  | nil => rfl
  | cons c m =>
    obtain ⟨a, b⟩ := c
    simp only [Memory.wfFrom, Bool.and_eq_true, decide_eq_true_eq] at hm ⊢
    exact ⟨⟨⟨by omega, hm.1.1.2⟩, hm.1.2⟩, hm.2⟩

/-- Below its lowest address a memory reads as the reset contents. -/
theorem Memory.read_below {lo a : Nat} {m : Memory} (hm : Memory.wfFrom lo m = true) (h : a < lo) :
    m.read a = resetByte a := by
  induction m generalizing lo with
  | nil => rfl
  | cons c m ih =>
    obtain ⟨a', b⟩ := c
    simp only [Memory.wfFrom, Bool.and_eq_true, decide_eq_true_eq] at hm
    rw [Memory.read, if_neg (by omega)]
    exact ih hm.2 (by omega)

/-- A write keeps the canonical form. -/
theorem Memory.write_wfFrom {lo a : Nat} {m : Memory} (b : Byte) (hm : Memory.wfFrom lo m = true)
    (hlo : lo ≤ a) (ha : a < 4096) : Memory.wfFrom lo (m.write a b) = true := by
  induction m generalizing lo with
  | nil =>
    rw [Memory.write]
    split
    · rfl
    · simp [Memory.wfFrom, *]
  | cons c m ih =>
    obtain ⟨a', b'⟩ := c
    have hm' := hm
    simp only [Memory.wfFrom, Bool.and_eq_true, decide_eq_true_eq] at hm'
    obtain ⟨⟨⟨h1, h2⟩, h3⟩, h4⟩ := hm'
    rw [Memory.write]
    by_cases hlt : a < a'
    · rw [if_pos hlt]
      split
      · exact hm
      · simp only [Memory.wfFrom, Bool.and_eq_true, decide_eq_true_eq]
        exact ⟨⟨⟨hlo, ha⟩, ‹_›⟩, ⟨⟨⟨by omega, h2⟩, h3⟩, h4⟩⟩
    · rw [if_neg hlt]
      by_cases heq : a = a'
      · subst heq
        rw [if_pos rfl]
        split
        · exact Memory.wfFrom_mono (by omega) h4
        · simp only [Memory.wfFrom, Bool.and_eq_true, decide_eq_true_eq]
          exact ⟨⟨⟨hlo, ha⟩, ‹_›⟩, h4⟩
      · rw [if_neg heq]
        simp only [Memory.wfFrom, Bool.and_eq_true, decide_eq_true_eq]
        exact ⟨⟨⟨h1, h2⟩, h3⟩, ih h4 (by omega)⟩

/-- Read after write, on a memory in canonical form from some address on. -/
theorem Memory.read_write_from {lo a : Nat} {m : Memory} (b : Byte) (hm : Memory.wfFrom lo m = true)
    (hlo : lo ≤ a) (a' : Nat) : (m.write a b).read a' = if a' = a then b else m.read a' := by
  induction m generalizing lo with
  | nil =>
    by_cases h : b = resetByte a
    · by_cases e : a' = a
      · simp [Memory.write, Memory.read, h, e]
      · simp [Memory.write, Memory.read, h, e]
    · simp [Memory.write, Memory.read, h]
  | cons c m ih =>
    obtain ⟨c, v⟩ := c
    have hm' := hm
    simp only [Memory.wfFrom, Bool.and_eq_true, decide_eq_true_eq] at hm'
    obtain ⟨⟨⟨h1, h2⟩, h3⟩, h4⟩ := hm'
    rw [Memory.write]
    by_cases hlt : a < c
    · rw [if_pos hlt]
      by_cases hb : b = resetByte a
      · rw [if_pos hb]
        by_cases e : a' = a
        · subst e
          rw [if_pos rfl, hb, Memory.read, if_neg (by omega)]
          exact Memory.read_below h4 (by omega)
        · rw [if_neg e]
      · rw [if_neg hb]
        rfl
    · rw [if_neg hlt]
      by_cases heq : a = c
      · subst heq
        rw [if_pos rfl]
        by_cases hb : b = resetByte a
        · rw [if_pos hb]
          by_cases e : a' = a
          · subst e
            rw [if_pos rfl, hb]
            exact Memory.read_below h4 (by omega)
          · rw [if_neg e, Memory.read, if_neg e]
        · rw [if_neg hb]
          by_cases e : a' = a
          · simp [Memory.read, e]
          · simp [Memory.read, e]
      · rw [if_neg heq, Memory.read]
        by_cases e : a' = c
        · subst e
          rw [if_pos rfl, if_neg (by omega), Memory.read, if_pos rfl]
        · rw [if_neg e, ih h4 (by omega), Memory.read, if_neg e]

/-- Reset memory is in canonical form. -/
theorem Memory.wf_nil : Memory.wf [] = true := rfl

/-- The font table of the reset contents, byte by byte (10_state.md R33). -/
theorem fontData_getElem? {j : Nat} (h : j < 80) : config.fontData[j]? = some (resetByte (0x50 + j)) := by
  have all : ∀ j : Fin 80, config.fontData[j.val]? = some (resetByte (0x50 + j.val)) := by decide
  exact all ⟨j, h⟩

/-- A write in bounds keeps the canonical form. -/
theorem Memory.wf_write {m : Memory} {a : Nat} (b : Byte) (hm : m.wf = true) (ha : a < 4096) :
    (m.write a b).wf = true := Memory.write_wfFrom b hm (Nat.zero_le a) ha

/-- Read after write (20_memory.md R54). -/
theorem Memory.read_write {m : Memory} (a : Nat) (b : Byte) (hm : m.wf = true) (a' : Nat) :
    (m.write a b).read a' = if a' = a then b else m.read a' :=
  Memory.read_write_from b hm (Nat.zero_le a) a'

/-- Storing a run of bytes in bounds keeps the canonical form. -/
theorem Memory.wf_writeBytes {m : Memory} {a : Nat} (bs : List Byte) (hm : m.wf = true)
    (ha : bs = [] ∨ a + bs.length ≤ 4096) : (m.writeBytes a bs).wf = true := by
  induction bs generalizing m a with
  | nil => exact hm
  | cons b bs ih =>
    have ha' : a + (bs.length + 1) ≤ 4096 := by simpa using ha
    exact ih (Memory.wf_write b hm (by omega)) (.inr (by omega))

/-- Read after a run of bytes is stored. -/
theorem Memory.read_writeBytes {m : Memory} {a : Nat} (bs : List Byte) (hm : m.wf = true)
    (ha : bs = [] ∨ a + bs.length ≤ 4096) (a' : Nat) :
    (m.writeBytes a bs).read a' =
      if h : a ≤ a' ∧ a' - a < bs.length then bs[a' - a]'h.2 else m.read a' := by
  induction bs generalizing m a with
  | nil => simp [Memory.writeBytes]
  | cons b bs ih =>
    have ha' : a + (bs.length + 1) ≤ 4096 := by simpa using ha
    rw [Memory.writeBytes, ih (Memory.wf_write b hm (by omega)) (.inr (by omega)),
      Memory.read_write _ _ hm]
    simp only [List.length_cons]
    by_cases h1 : a' = a
    · subst h1
      simp
    · by_cases h2 : a + 1 ≤ a'
      · have e : a' - a = (a' - (a + 1)) + 1 := by omega
        by_cases h3 : a' - (a + 1) < bs.length
        · rw [dif_pos ⟨h2, h3⟩, dif_pos (by omega)]
          simp [e]
        · rw [dif_neg (by omega), dif_neg (by omega), if_neg h1]
      · rw [dif_neg (by omega), dif_neg (by omega), if_neg h1]

/-! ## Runs of bytes read -/

/-- How many bytes are read. -/
@[simp] theorem Memory.readBytes_length (m : Memory) (a n : Nat) : (m.readBytes a n).length = n := by
  induction n generalizing a with
  | zero => rfl
  | succ n ih => simp [Memory.readBytes, ih]

/-- Which bytes are read. -/
theorem Memory.readBytes_getElem (m : Memory) (a n j : Nat) (h : j < (m.readBytes a n).length) :
    (m.readBytes a n)[j] = m.read (a + j) := by
  induction n generalizing a j with
  | zero => simp at h
  | succ n ih =>
    cases j with
    | zero => rfl
    | succ j =>
      simp only [Memory.readBytes, List.getElem_cons_succ]
      rw [ih, show a + 1 + j = a + (j + 1) by omega]

/-! ## Bounds -/

/-- An access is in bounds. -/
theorem firstOutOfBounds_none {base len : Nat} (h : len = 0 ∨ base + len ≤ 4096) :
    firstOutOfBounds base len = none := by simp [firstOutOfBounds, h]

/-- An access is out of bounds: its lowest bad address. -/
theorem firstOutOfBounds_some {base len : Nat} (h0 : len ≠ 0) (h : 4096 < base + len) :
    firstOutOfBounds base len = some (max base 4096) := by
  rw [firstOutOfBounds, memSize_eq, if_neg (by omega)]

/-- A checked access in bounds goes on. -/
theorem withBounds_in {base len : Nat} (h : len = 0 ∨ base + len ≤ 4096) (r : Result) :
    withBounds base len r = r := by rw [withBounds, firstOutOfBounds_none h]

/-- A checked access out of bounds raises, whatever would have followed. -/
theorem withBounds_out {base len : Nat} (h0 : len ≠ 0) (h : 4096 < base + len) (r : Result) :
    withBounds base len r = .fault (.outOfBoundsAccess (max base 4096)) := by
  rw [withBounds, firstOutOfBounds_some h0 h]
  rfl

/-- A checked access that would go on raises exactly out of bounds. -/
theorem withBounds_fault_iff {base len : Nat} (h0 : len ≠ 0) (t : State) (f : Fault) :
    withBounds base len (.next t) = .fault f ↔
      4096 < base + len ∧ f = .outOfBoundsAccess (max base 4096) := by
  by_cases h : base + len ≤ 4096
  · rw [withBounds_in (.inr h)]
    exact ⟨nofun, fun h' => by omega⟩
  · rw [withBounds_out h0 (by omega), Host.Outcome.fault.injEq]
    exact ⟨fun e => ⟨by omega, e.symm⟩, fun e => e.2.symm⟩

/-- A checked access that would go on is never refused. -/
theorem withBounds_ne_refused (base len : Nat) (t : State) (r : Refusal) :
    withBounds base len (.next t) ≠ .refused r := by
  by_cases h : len = 0 ∨ base + len ≤ 4096
  · rw [withBounds_in h]
    nofun
  · rw [withBounds_out (by omega) (by omega)]
    nofun

/-- A checked access that answers a next state was in bounds. -/
theorem withBounds_next {base len : Nat} {r : Result} {t : State} (h : withBounds base len r = .next t) :
    (len = 0 ∨ base + len ≤ 4096) ∧ r = .next t := by
  by_cases hb : len = 0 ∨ base + len ≤ 4096
  · exact ⟨hb, by rwa [withBounds_in hb] at h⟩
  · rw [withBounds_out (by omega) (by omega)] at h
    cases h

/-! ## Fetch -/

/-- A fetch in bounds goes on with the word at `pc`. -/
theorem withFetched_in {s : State} (h : s.pc.toNat + 1 < 4096) (go : Word16 → Result) :
    withFetched s go = go (s.mem.wordAt s.pc.toNat) := by
  rw [withFetched, firstOutOfBounds_none (.inr (by omega))]

/-- A fetch out of bounds raises. -/
theorem withFetched_out {s : State} (h : 4096 ≤ s.pc.toNat + 1) (go : Word16 → Result) :
    withFetched s go = .fault (.outOfBoundsAccess (max s.pc.toNat 4096)) := by
  rw [withFetched, firstOutOfBounds_some (by omega) (by omega)]
  rfl

/-- The bytes of a word put together give the word (20_memory.md R45). -/
theorem wordOfBytes_bytes (w : Word16) : wordOfBytes (hiByte w) (loByte w) = w := by
  have := w.isLt
  apply BitVec.eq_of_toNat_eq
  simp only [wordOfBytes, hiByte, loByte, BitVec.toNat_ofNat]
  omega

/-- A word stored in bounds is the word a fetch reads there. -/
theorem Memory.wordAt_writeWord {m : Memory} {a : Nat} (w : Word16) (hm : m.wf = true)
    (ha : a + 1 < 4096) : (m.writeWord a w).wordAt a = w := by
  have hb : [hiByte w, loByte w] = [] ∨ a + [hiByte w, loByte w].length ≤ 4096 := .inr (by simp; omega)
  rw [Memory.wordAt, Memory.writeWord, Memory.read_writeBytes _ hm hb, Memory.read_writeBytes _ hm hb]
  simpa using wordOfBytes_bytes w

end Sys2Proof.Machine
end

