-- ==== Sys2Proof/Laws/Exec.lean ====
section
/-!
SUPPORT. The meanings that branch, each with its cases as equations: return, call, draw, wait for key and
the checked transfers. The other meanings answer `.next` of their one update by definition.
-/

namespace Sys2Proof.Machine

variable {s t : State}

theorem execRet_empty (h : s.sp.val = 0) : execRet s = .fault (.stackUnderflow s.pc) := by
  rw [execRet, if_pos h]
  rfl

theorem execRet_nonempty (h : s.sp.val ≠ 0) :
    execRet s = .next (s.pop.setPc (s.slot s.topSlot + 2)) := by
  rw [execRet, if_neg h]

theorem execCall_full (nnn : Addr12) (h : s.sp.val = 16) :
    execCall nnn s = .fault (.stackOverflow s.pc) := by
  rw [execCall, if_pos h]
  rfl

theorem execCall_room (nnn : Addr12) (h : s.sp.val ≠ 16) :
    execCall nnn s = .next ((s.push s.pc).setPc (zext16 nnn)) := by
  rw [execCall, if_neg h]

/-- A store at `I` in bounds completes. -/
theorem storeAtI_in {bytes : List Byte} (h : s.base + bytes.length ≤ 4096) :
    storeAtI bytes s = .next (s.setMem (s.mem.writeBytes s.base bytes)).next := withBounds_in (.inr h) _

/-- A check of a store at `I` that answers a next state. -/
theorem storeAtI_next {bytes : List Byte} (h : storeAtI bytes s = .next t) :
    (bytes = [] ∨ s.base + bytes.length ≤ 4096) ∧
      t = (s.setMem (s.mem.writeBytes s.base bytes)).next := by
  obtain ⟨hb, ht⟩ := withBounds_next h
  refine ⟨?_, by cases ht; rfl⟩
  rcases hb with hb | hb
  · exact .inl (List.length_eq_zero_iff.mp hb)
  · exact .inr hb

/-- A load of registers that answers a next state. -/
theorem execLoadRegs_next {x : Reg} (h : execLoadRegs x s = .next t) :
    s.base + regCount x ≤ 4096 ∧
      t = (s.setRegsFrom 0 (s.mem.readBytes s.base (regCount x))).next := by
  obtain ⟨hb, ht⟩ := withBounds_next h
  refine ⟨?_, by cases ht; rfl⟩
  rcases hb with hb | hb
  · exact absurd hb (Nat.succ_ne_zero _)
  · exact hb

/-- A draw that answers a next state. -/
theorem execDrw_next {x y : Reg} {n : Fin 16} (h : execDrw x y n s = .next t) :
    (n.val = 0 ∨ s.base + n.val ≤ 4096) ∧
      ∃ cv : Canvas, t = ((s.setDisp cv.disp).setReg VF (flagByte cv.hit)).next := by
  obtain ⟨hb, ht⟩ := withBounds_next h
  exact ⟨hb, _, (Host.Outcome.next.inj ht).symm⟩

/-- A draw in bounds, by its canvas. -/
theorem execDrw_in (x y : Reg) {n : Fin 16} (h : n.val = 0 ∨ s.base + n.val ≤ 4096) (cv : Canvas)
    (hcv : cv = s.canvasAfter (startCol (s.reg x)) (startRow (s.reg y)) (s.mem.readBytes s.base n.val)) :
    execDrw x y n s = .next ((s.setDisp cv.disp).setReg VF (flagByte cv.hit)).next := by
  rw [execDrw, withBounds_in h, hcv]

/-- The pixel at row `k` and column `c` of a sprite read from memory (45_draw.md R110 (a)). -/
theorem State.canvasAfter_at (s : State) (cx cy a : Nat) {n k c : Nat} (hn : n ≤ 32) (hk : k < n)
    (hc : c < 8) :
    (s.canvasAfter cx cy (s.mem.readBytes a n)).disp.pixel (wrapRow (cy + k)) (wrapCol (cx + c)) =
      (s.pixel (wrapRow (cy + k)) (wrapCol (cx + c)) ^^ (s.mem.read (a + k)).getLsbD (7 - c)) := by
  rw [State.canvasAfter, Canvas.plotRows_pixel _ _ _ _ _ (by simpa using hn)]
  have := spriteBit_at cx cy 0 (s.mem.readBytes a n) (by simpa using hn) k c (by simpa using hk) hc
  rw [Nat.zero_add] at this
  rw [this, Memory.readBytes_getElem]
  rfl

/-- A pixel the sprite does not reach. -/
theorem State.canvasAfter_off (s : State) (cx cy a : Nat) {n : Nat} (hn : n ≤ 32) (row : Fin 32)
    (col : Fin 64)
    (h : ∀ k c, k < n → c < 8 → ¬ (row = wrapRow (cy + k) ∧ col = wrapCol (cx + c))) :
    (s.canvasAfter cx cy (s.mem.readBytes a n)).disp.pixel row col = s.pixel row col := by
  rw [State.canvasAfter, Canvas.plotRows_pixel _ _ _ _ _ (by simpa using hn), spriteBit_off, Bool.xor_false]
  · rfl
  · intro k c hk hc
    rw [Nat.zero_add]
    exact h k c (by simpa using hk) hc

/-- The collision bit of a sprite read from memory (45_draw.md R110 (b)). -/
theorem State.canvasAfter_hit (s : State) (cx cy a : Nat) {n : Nat} (hn : n ≤ 32) :
    (s.canvasAfter cx cy (s.mem.readBytes a n)).hit = true ↔
      ∃ k c, k < n ∧ c < 8 ∧ (s.mem.read (a + k)).getLsbD (7 - c) = true ∧
        s.pixel (wrapRow (cy + k)) (wrapCol (cx + c)) = true := by
  rw [State.canvasAfter, Canvas.plotRows_hit _ _ _ _ _ (by simpa using hn)]
  simp only [Bool.false_eq_true, false_or, Memory.readBytes_length, Memory.readBytes_getElem,
    Nat.zero_add]
  constructor
  · rintro ⟨k, c, hk, hc, hb, hp⟩
    exact ⟨k, c, hk, hc, hb, hp⟩
  · rintro ⟨k, c, hk, hc, hb, hp⟩
    exact ⟨k, c, hk, hc, hb, hp⟩

/-- A wait for a key: what it answers with a key pressed, and with none. -/
theorem execLdVxK_cases (x : Reg) (s : State) :
    (∃ k : KeyIndex, s.keyDown k = true ∧ (∀ j : KeyIndex, j < k → s.keyDown j = false) ∧
      execLdVxK x s = .next (s.setReg x (keyByte k)).next) ∨
    ((∀ k : KeyIndex, s.keyDown k = false) ∧ execLdVxK x s = .next (s.setWait x)) := by
  rcases s.lowestPressed_cases with ⟨k, e, hk, hlow⟩ | ⟨e, hnone⟩
  · exact .inl ⟨k, hk, hlow, by rw [execLdVxK, e]⟩
  · exact .inr ⟨hnone, by rw [execLdVxK, e]⟩

/-- A poll: what it answers with a key pressed, and with none (46_keypad.md R115). -/
theorem poll_cases (s : State) :
    (∃ k : KeyIndex, s.keyDown k = true ∧ (∀ j : KeyIndex, j < k → s.keyDown j = false) ∧
      poll s = .next ((s.setReg s.waitReg (keyByte k)).clearWait).next) ∨
    ((∀ k : KeyIndex, s.keyDown k = false) ∧ poll s = .next s) := by
  rcases s.lowestPressed_cases with ⟨k, e, hk, hlow⟩ | ⟨e, hnone⟩
  · exact .inl ⟨k, hk, hlow, by rw [poll, e]⟩
  · exact .inr ⟨hnone, by rw [poll, e]⟩

end Sys2Proof.Machine
end

