-- ==== Sys2Proof/Laws/Operands.lean ====
section
/-!
SUPPORT. What the operand forms and flag computations give, in the plain operations of bit vectors and
naturals, so that no proof unfolds them again.
-/

namespace Sys2Proof.Machine

theorem zext16_toNat (nnn : Addr12) : (zext16 nnn).toNat = nnn.toNat := by
  have := nnn.isLt
  rw [zext16, BitVec.toNat_ofNat]
  omega

theorem offsetTarget_toNat (nnn : Addr12) (v0 : Byte) :
    (offsetTarget nnn v0).toNat = nnn.toNat + v0.toNat := by
  have := nnn.isLt
  have := v0.isLt
  rw [offsetTarget, BitVec.toNat_ofNat]
  omega

/-- With `X = Y` the shifts read the same register under every configuration. -/
theorem shiftSourceReg_self (c : Config) (x : Reg) : shiftSourceReg c x x = x := by
  unfold shiftSourceReg
  split <;> rfl

/-- The register the shifts read is the one `SHIFT_SOURCE` names. -/
theorem shiftSourceReg_eq {c : Config} {x y z : Reg}
    (h : (c.shiftSource = .y ∧ z = y) ∨ (c.shiftSource = .x ∧ z = x)) : shiftSourceReg c x y = z := by
  rcases h with ⟨h, rfl⟩ | ⟨h, rfl⟩ <;> simp [shiftSourceReg, h]

theorem sum8_eq (a b : Byte) : sum8 a b = a + b := by
  apply BitVec.eq_of_toNat_eq
  rw [sum8, BitVec.toNat_ofNat, BitVec.toNat_add]

theorem diff8_eq (a b : Byte) : diff8 a b = a - b := by
  have := a.isLt
  have := b.isLt
  apply BitVec.eq_of_toNat_eq
  rw [diff8, BitVec.toNat_ofNat, BitVec.toNat_sub]
  omega

theorem shiftRight1_eq (v : Byte) : shiftRight1 v = v >>> 1 := by
  have := v.isLt
  apply BitVec.eq_of_toNat_eq
  rw [shiftRight1, BitVec.toNat_ofNat, BitVec.toNat_ushiftRight, Nat.shiftRight_eq_div_pow]
  omega

theorem shiftLeft1_eq (v : Byte) : shiftLeft1 v = v <<< 1 := by
  apply BitVec.eq_of_toNat_eq
  rw [shiftLeft1, BitVec.toNat_ofNat, BitVec.toNat_shiftLeft, Nat.shiftLeft_eq]
  omega

/-- Under a valid configuration the glyph address does not wrap (48_index_memory.md R121). -/
theorem glyphAddress_toNat {c : Config} (hc : c.valid = true) (v : Byte) :
    (glyphAddress c v).toNat = c.fontBase + c.glyphHeight * v.toNat := by
  simp only [Config.valid, Bool.and_eq_true, decide_eq_true_eq] at hc
  have h1 := v.isLt
  have h2 : c.glyphHeight * v.toNat ≤ c.glyphHeight * 255 := Nat.mul_le_mul_left _ (by omega)
  rw [glyphAddress, BitVec.toNat_ofNat, Nat.mod_eq_of_lt (by omega)]

theorem eq_wrapRow_iff (row : Fin 32) (n : Nat) : row = wrapRow n ↔ row.val = n % 32 := by
  rw [Fin.ext_iff]
  rfl

theorem eq_wrapCol_iff (col : Fin 64) (n : Nat) : col = wrapCol n ↔ col.val = n % 64 := by
  rw [Fin.ext_iff]
  rfl

/-- A byte is nonzero when one of its bits, counted from the left, is on. -/
theorem byte_ne_zero_iff (b : Byte) : b ≠ 0 ↔ ∃ c, c < 8 ∧ b.getLsbD (7 - c) = true := by
  constructor
  · intro h
    by_contra hn
    apply h
    apply BitVec.eq_of_getLsbD_eq
    intro i hi
    simp only [not_exists, not_and, Bool.not_eq_true] at hn
    have := hn (7 - i) (by omega)
    rw [show 7 - (7 - i) = i by omega] at this
    simp [this]
  · rintro ⟨c, -, hb⟩ rfl
    simp at hb

end Sys2Proof.Machine
end

