-- ==== Sys2Proof/Laws/Table.lean ====
section
/-!
SUPPORT. The masks of the opcode table as arithmetic: which words a row of each format hits
(30_encoding.md R66, R67).
-/

namespace Sys2Proof

/-- A mask of the family nibble and the low `2^k - 1`, as arithmetic. -/
theorem land_family_low {n mask low k : Nat} (hn : n < 65536) (hm : mask / 2 ^ 12 = 2 ^ 4 - 1)
    (hl : mask % 2 ^ 12 = low) (hk : ∀ m, m &&& low = m % k) (hd : k ∣ 4096) (hk0 : 0 < k) :
    n &&& mask = n / 4096 * 4096 + n % k := by
  have h1 : (n &&& mask) / 2 ^ 12 = n / 4096 := by
    rw [Nat.and_div_two_pow, hm, Nat.and_two_pow_sub_one_eq_mod]
    omega
  have h2 : (n &&& mask) % 2 ^ 12 = n % k := by
    rw [Nat.and_mod_two_pow, hl, hk, Nat.mod_mod_of_dvd _ hd]
  have h3 : n % k < 4096 := Nat.lt_of_lt_of_le (Nat.mod_lt _ hk0) (Nat.le_of_dvd (by decide) hd)
  omega

theorem land_F000 {n : Nat} (hn : n < 65536) : n &&& 0xF000 = n / 4096 * 4096 := by
  have := land_family_low (mask := 0xF000) (low := 0) (k := 1) hn (by decide) (by decide)
    (fun m => by simp [Nat.mod_one]) (by decide) (by decide)
  rw [this, Nat.mod_one, Nat.add_zero]

theorem land_F00F {n : Nat} (hn : n < 65536) : n &&& 0xF00F = n / 4096 * 4096 + n % 16 :=
  land_family_low (low := 2 ^ 4 - 1) hn (by decide) (by decide)
    (fun m => Nat.and_two_pow_sub_one_eq_mod m 4) (by decide) (by decide)

theorem land_F0FF {n : Nat} (hn : n < 65536) : n &&& 0xF0FF = n / 4096 * 4096 + n % 256 :=
  land_family_low (low := 2 ^ 8 - 1) hn (by decide) (by decide)
    (fun m => Nat.and_two_pow_sub_one_eq_mod m 8) (by decide) (by decide)

/-- A row hits a word, on naturals. -/
theorem OpcodeRow.hits_iff (r : OpcodeRow) (w : Word16) :
    r.hits w = true ↔ w.toNat &&& r.mask.toNat = r.pattern.toNat := by
  rw [OpcodeRow.hits, beq_iff_eq, ← BitVec.toNat_inj, BitVec.toNat_and]

/-- A row fixed on the leading nibble only: class (c) of R67. -/
theorem OpcodeRow.hits_family {r : OpcodeRow} (hm : r.mask = 0xF000) (w : Word16) :
    r.hits w = true ↔ w.toNat / 4096 * 4096 = r.pattern.toNat := by
  rw [OpcodeRow.hits_iff, hm, show (0xF000 : Word16).toNat = 0xF000 from rfl, land_F000 w.isLt]

/-- A row of format XYO. -/
theorem OpcodeRow.hits_xyo {r : OpcodeRow} (hm : r.mask = 0xF00F) (w : Word16) :
    r.hits w = true ↔ w.toNat / 4096 * 4096 + w.toNat % 16 = r.pattern.toNat := by
  rw [OpcodeRow.hits_iff, hm, show (0xF00F : Word16).toNat = 0xF00F from rfl, land_F00F w.isLt]

/-- A row of format XOO. -/
theorem OpcodeRow.hits_xoo {r : OpcodeRow} (hm : r.mask = 0xF0FF) (w : Word16) :
    r.hits w = true ↔ w.toNat / 4096 * 4096 + w.toNat % 256 = r.pattern.toNat := by
  rw [OpcodeRow.hits_iff, hm, show (0xF0FF : Word16).toNat = 0xF0FF from rfl, land_F0FF w.isLt]

/-- A row of format FIXED. -/
theorem OpcodeRow.hits_fixed {r : OpcodeRow} (hm : r.mask = 0xFFFF) (w : Word16) :
    r.hits w = true ↔ w.toNat = r.pattern.toNat := by
  rw [OpcodeRow.hits_iff, hm, show (0xFFFF : Word16).toNat = 2 ^ 16 - 1 from rfl,
    Nat.and_two_pow_sub_one_eq_mod, Nat.mod_eq_of_lt w.isLt]

/-- The catch-all row hits every word. -/
theorem OpcodeRow.hits_all {r : OpcodeRow} (hm : r.mask = 0) (hp : r.pattern = 0) (w : Word16) :
    r.hits w = true := by
  rw [OpcodeRow.hits_iff, hm, hp]
  simp

end Sys2Proof
end

