-- ==== Sys2Proof/Laws/PerInstr.lean ====
section
/-!
SUPPORT. Facts stated of every instruction, one lemma per constructor.
`MatchesTable`: the word of an instruction is hit by the row of the opcode table it stands for
(30_encoding.md R67, R68). It ties the encoder to the table's own masks.
-/

namespace Sys2Proof.Laws

/-- The word of the instruction is hit by its row of the opcode table. -/
def MatchesTable.Statement (i : Instr) : Prop :=
  ∃ r, opcodeTable[i.rowNumber]? = some r ∧ r.hits (encode i) = true

theorem MatchesTable.cls : MatchesTable.Statement .cls := ⟨_, rfl, by decide⟩

theorem MatchesTable.ret : MatchesTable.Statement .ret := ⟨_, rfl, by decide⟩

theorem MatchesTable.sys (nnn : Addr12) : MatchesTable.Statement (.sys nnn) := by
  have := nnn.isLt
  refine ⟨_, rfl, (OpcodeRow.hits_family rfl _).mpr ?_⟩
  rw [encode, encodeNNN_toNat (by decide)]
  change _ = (0x0000 : Nat)
  omega

theorem MatchesTable.jp (nnn : Addr12) : MatchesTable.Statement (.jp nnn) := by
  have := nnn.isLt
  refine ⟨_, rfl, (OpcodeRow.hits_family rfl _).mpr ?_⟩
  rw [encode, encodeNNN_toNat (by decide)]
  change _ = (0x1000 : Nat)
  omega

theorem MatchesTable.call (nnn : Addr12) : MatchesTable.Statement (.call nnn) := by
  have := nnn.isLt
  refine ⟨_, rfl, (OpcodeRow.hits_family rfl _).mpr ?_⟩
  rw [encode, encodeNNN_toNat (by decide)]
  change _ = (0x2000 : Nat)
  omega

theorem MatchesTable.seImm (x : Reg) (nn : Byte) : MatchesTable.Statement (.seImm x nn) := by
  have := nn.isLt
  refine ⟨_, rfl, (OpcodeRow.hits_family rfl _).mpr ?_⟩
  rw [encode, encodeXNN_toNat (by decide)]
  change _ = (0x3000 : Nat)
  omega

theorem MatchesTable.sneImm (x : Reg) (nn : Byte) : MatchesTable.Statement (.sneImm x nn) := by
  have := nn.isLt
  refine ⟨_, rfl, (OpcodeRow.hits_family rfl _).mpr ?_⟩
  rw [encode, encodeXNN_toNat (by decide)]
  change _ = (0x4000 : Nat)
  omega

theorem MatchesTable.seReg (x y : Reg) : MatchesTable.Statement (.seReg x y) := by
  refine ⟨_, rfl, (OpcodeRow.hits_xyo rfl _).mpr ?_⟩
  rw [encode, encodeXYN_toNat (by decide) (by decide)]
  change _ = (0x5000 : Nat)
  omega

theorem MatchesTable.ldImm (x : Reg) (nn : Byte) : MatchesTable.Statement (.ldImm x nn) := by
  have := nn.isLt
  refine ⟨_, rfl, (OpcodeRow.hits_family rfl _).mpr ?_⟩
  rw [encode, encodeXNN_toNat (by decide)]
  change _ = (0x6000 : Nat)
  omega

theorem MatchesTable.addImm (x : Reg) (nn : Byte) : MatchesTable.Statement (.addImm x nn) := by
  have := nn.isLt
  refine ⟨_, rfl, (OpcodeRow.hits_family rfl _).mpr ?_⟩
  rw [encode, encodeXNN_toNat (by decide)]
  change _ = (0x7000 : Nat)
  omega

theorem MatchesTable.ldReg (x y : Reg) : MatchesTable.Statement (.ldReg x y) := by
  refine ⟨_, rfl, (OpcodeRow.hits_xyo rfl _).mpr ?_⟩
  rw [encode, encodeXYN_toNat (by decide) (by decide)]
  change _ = (0x8000 : Nat)
  omega

theorem MatchesTable.orReg (x y : Reg) : MatchesTable.Statement (.orReg x y) := by
  refine ⟨_, rfl, (OpcodeRow.hits_xyo rfl _).mpr ?_⟩
  rw [encode, encodeXYN_toNat (by decide) (by decide)]
  change _ = (0x8001 : Nat)
  omega

theorem MatchesTable.andReg (x y : Reg) : MatchesTable.Statement (.andReg x y) := by
  refine ⟨_, rfl, (OpcodeRow.hits_xyo rfl _).mpr ?_⟩
  rw [encode, encodeXYN_toNat (by decide) (by decide)]
  change _ = (0x8002 : Nat)
  omega

theorem MatchesTable.xorReg (x y : Reg) : MatchesTable.Statement (.xorReg x y) := by
  refine ⟨_, rfl, (OpcodeRow.hits_xyo rfl _).mpr ?_⟩
  rw [encode, encodeXYN_toNat (by decide) (by decide)]
  change _ = (0x8003 : Nat)
  omega

theorem MatchesTable.addReg (x y : Reg) : MatchesTable.Statement (.addReg x y) := by
  refine ⟨_, rfl, (OpcodeRow.hits_xyo rfl _).mpr ?_⟩
  rw [encode, encodeXYN_toNat (by decide) (by decide)]
  change _ = (0x8004 : Nat)
  omega

theorem MatchesTable.subReg (x y : Reg) : MatchesTable.Statement (.subReg x y) := by
  refine ⟨_, rfl, (OpcodeRow.hits_xyo rfl _).mpr ?_⟩
  rw [encode, encodeXYN_toNat (by decide) (by decide)]
  change _ = (0x8005 : Nat)
  omega

theorem MatchesTable.shrReg (x y : Reg) : MatchesTable.Statement (.shrReg x y) := by
  refine ⟨_, rfl, (OpcodeRow.hits_xyo rfl _).mpr ?_⟩
  rw [encode, encodeXYN_toNat (by decide) (by decide)]
  change _ = (0x8006 : Nat)
  omega

theorem MatchesTable.subnReg (x y : Reg) : MatchesTable.Statement (.subnReg x y) := by
  refine ⟨_, rfl, (OpcodeRow.hits_xyo rfl _).mpr ?_⟩
  rw [encode, encodeXYN_toNat (by decide) (by decide)]
  change _ = (0x8007 : Nat)
  omega

theorem MatchesTable.shlReg (x y : Reg) : MatchesTable.Statement (.shlReg x y) := by
  refine ⟨_, rfl, (OpcodeRow.hits_xyo rfl _).mpr ?_⟩
  rw [encode, encodeXYN_toNat (by decide) (by decide)]
  change _ = (0x800E : Nat)
  omega

theorem MatchesTable.sneReg (x y : Reg) : MatchesTable.Statement (.sneReg x y) := by
  refine ⟨_, rfl, (OpcodeRow.hits_xyo rfl _).mpr ?_⟩
  rw [encode, encodeXYN_toNat (by decide) (by decide)]
  change _ = (0x9000 : Nat)
  omega

theorem MatchesTable.ldI (nnn : Addr12) : MatchesTable.Statement (.ldI nnn) := by
  have := nnn.isLt
  refine ⟨_, rfl, (OpcodeRow.hits_family rfl _).mpr ?_⟩
  rw [encode, encodeNNN_toNat (by decide)]
  change _ = (0xA000 : Nat)
  omega

theorem MatchesTable.jpV0 (nnn : Addr12) : MatchesTable.Statement (.jpV0 nnn) := by
  have := nnn.isLt
  refine ⟨_, rfl, (OpcodeRow.hits_family rfl _).mpr ?_⟩
  rw [encode, encodeNNN_toNat (by decide)]
  change _ = (0xB000 : Nat)
  omega

theorem MatchesTable.rnd (x : Reg) (nn : Byte) : MatchesTable.Statement (.rnd x nn) := by
  have := nn.isLt
  refine ⟨_, rfl, (OpcodeRow.hits_family rfl _).mpr ?_⟩
  rw [encode, encodeXNN_toNat (by decide)]
  change _ = (0xC000 : Nat)
  omega

theorem MatchesTable.drw (x y : Reg) (n : Fin 16) : MatchesTable.Statement (.drw x y n) := by
  refine ⟨_, rfl, (OpcodeRow.hits_family rfl _).mpr ?_⟩
  rw [encode, encodeXYN_toNat (by decide) n.isLt]
  change _ = (0xD000 : Nat)
  omega

theorem MatchesTable.skp (x : Reg) : MatchesTable.Statement (.skp x) := by
  refine ⟨_, rfl, (OpcodeRow.hits_xoo rfl _).mpr ?_⟩
  rw [encode, encodeXOO_toNat (by decide) (by decide)]
  change _ = (0xE09E : Nat)
  omega

theorem MatchesTable.sknp (x : Reg) : MatchesTable.Statement (.sknp x) := by
  refine ⟨_, rfl, (OpcodeRow.hits_xoo rfl _).mpr ?_⟩
  rw [encode, encodeXOO_toNat (by decide) (by decide)]
  change _ = (0xE0A1 : Nat)
  omega

theorem MatchesTable.ldVxDT (x : Reg) : MatchesTable.Statement (.ldVxDT x) := by
  refine ⟨_, rfl, (OpcodeRow.hits_xoo rfl _).mpr ?_⟩
  rw [encode, encodeXOO_toNat (by decide) (by decide)]
  change _ = (0xF007 : Nat)
  omega

theorem MatchesTable.ldVxK (x : Reg) : MatchesTable.Statement (.ldVxK x) := by
  refine ⟨_, rfl, (OpcodeRow.hits_xoo rfl _).mpr ?_⟩
  rw [encode, encodeXOO_toNat (by decide) (by decide)]
  change _ = (0xF00A : Nat)
  omega

theorem MatchesTable.ldDTVx (x : Reg) : MatchesTable.Statement (.ldDTVx x) := by
  refine ⟨_, rfl, (OpcodeRow.hits_xoo rfl _).mpr ?_⟩
  rw [encode, encodeXOO_toNat (by decide) (by decide)]
  change _ = (0xF015 : Nat)
  omega

theorem MatchesTable.ldSTVx (x : Reg) : MatchesTable.Statement (.ldSTVx x) := by
  refine ⟨_, rfl, (OpcodeRow.hits_xoo rfl _).mpr ?_⟩
  rw [encode, encodeXOO_toNat (by decide) (by decide)]
  change _ = (0xF018 : Nat)
  omega

theorem MatchesTable.addIVx (x : Reg) : MatchesTable.Statement (.addIVx x) := by
  refine ⟨_, rfl, (OpcodeRow.hits_xoo rfl _).mpr ?_⟩
  rw [encode, encodeXOO_toNat (by decide) (by decide)]
  change _ = (0xF01E : Nat)
  omega

theorem MatchesTable.ldFVx (x : Reg) : MatchesTable.Statement (.ldFVx x) := by
  refine ⟨_, rfl, (OpcodeRow.hits_xoo rfl _).mpr ?_⟩
  rw [encode, encodeXOO_toNat (by decide) (by decide)]
  change _ = (0xF029 : Nat)
  omega

theorem MatchesTable.ldBVx (x : Reg) : MatchesTable.Statement (.ldBVx x) := by
  refine ⟨_, rfl, (OpcodeRow.hits_xoo rfl _).mpr ?_⟩
  rw [encode, encodeXOO_toNat (by decide) (by decide)]
  change _ = (0xF033 : Nat)
  omega

theorem MatchesTable.storeRegs (x : Reg) : MatchesTable.Statement (.storeRegs x) := by
  refine ⟨_, rfl, (OpcodeRow.hits_xoo rfl _).mpr ?_⟩
  rw [encode, encodeXOO_toNat (by decide) (by decide)]
  change _ = (0xF055 : Nat)
  omega

theorem MatchesTable.loadRegs (x : Reg) : MatchesTable.Statement (.loadRegs x) := by
  refine ⟨_, rfl, (OpcodeRow.hits_xoo rfl _).mpr ?_⟩
  rw [encode, encodeXOO_toNat (by decide) (by decide)]
  change _ = (0xF065 : Nat)
  omega

theorem MatchesTable.nop (w : Word16) : MatchesTable.Statement (.nop w) :=
  ⟨_, rfl, OpcodeRow.hits_all rfl rfl _⟩

end Sys2Proof.Laws
end

