-- ==== Sys2Proof/Laws/Step.lean ====
section
/-!
SUPPORT. What a step can do, said once: one lemma per event, and the inversion of a step that answers a
next state. Proofs about `step` cite these and never unfold it.
-/

namespace Sys2Proof.Machine

variable {s t : State}

/-! ## `issued`: only the model's record of the host changes -/

theorem State.issued_eq (s : State) : s.issued = s.setHost (s.host.issue s.nextEvent) := rfl

@[simp] theorem State.issued_mem (s : State) : s.issued.mem = s.mem := rfl
@[simp] theorem State.issued_V (s : State) : s.issued.V = s.V := rfl
@[simp] theorem State.issued_pc (s : State) : s.issued.pc = s.pc := rfl
@[simp] theorem State.issued_I (s : State) : s.issued.I = s.I := rfl
@[simp] theorem State.issued_stack (s : State) : s.issued.stack = s.stack := rfl
@[simp] theorem State.issued_sp (s : State) : s.issued.sp = s.sp := rfl
@[simp] theorem State.issued_DT (s : State) : s.issued.DT = s.DT := rfl
@[simp] theorem State.issued_ST (s : State) : s.issued.ST = s.ST := rfl
@[simp] theorem State.issued_disp (s : State) : s.issued.disp = s.disp := rfl
@[simp] theorem State.issued_keys (s : State) : s.issued.keys = s.keys := rfl
@[simp] theorem State.issued_waitKey (s : State) : s.issued.waitKey = s.waitKey := rfl
@[simp] theorem State.issued_waitReg (s : State) : s.issued.waitReg = s.waitReg := rfl
@[simp] theorem State.issued_draws (s : State) : s.issued.draws = s.draws := rfl
@[simp] theorem State.issued_reg (s : State) (r : Reg) : s.issued.reg r = s.reg r := rfl
@[simp] theorem State.issued_slot (s : State) (k : Fin 16) : s.issued.slot k = s.slot k := rfl
@[simp] theorem State.issued_pixel (s : State) (row : Fin 32) (col : Fin 64) :
    s.issued.pixel row col = s.pixel row col := rfl
@[simp] theorem State.issued_keyDown (s : State) (k : KeyIndex) : s.issued.keyDown k = s.keyDown k := rfl

/-- Once a STEP is issued the contract of LOAD is closed. -/
theorem State.issued_started (h : s.nextEvent = .step) : s.issued.host.started = true := by
  simp [State.issued, HostAgent.issue, h]

/-- Any other event leaves it as it was. -/
theorem State.issued_started_other (h : s.nextEvent ≠ .step) :
    s.issued.host.started = s.host.started := by
  simp [State.issued, HostAgent.issue, h]

/-! ## One lemma per event -/

theorem step_of_step (h : s.nextEvent = .step) : step s = stepEvent s.issued := by
  rw [step, h]

theorem step_of_tick (h : s.nextEvent = .tick) : step s = .next (tickEvent s.issued) := by
  rw [step, h]

theorem step_of_key {k : KeyIndex} {b : Bool} (h : s.nextEvent = .key k b) :
    step s = .next (keyEvent k b s.issued) := by
  rw [step, h]

theorem step_of_load {a : Nat} {b : Byte} (h : s.nextEvent = .load a b) :
    step s = loadEvent a b s.issued := by
  rw [step, h]

theorem step_of_read (h : s.nextEvent = .read) : step s = .next s.issued := by
  rw [step, h]

theorem step_of_reset (h : s.nextEvent = .reset) : step s = .next (resetEvent s.issued) := by
  rw [step, h]

/-! ## The STEP event -/

theorem stepEvent_poll (h : s.waitKey = true) : stepEvent s = poll s := by
  rw [stepEvent, if_pos h]

theorem stepEvent_exec (hw : s.waitKey = false) (hpc : s.pc.toNat + 1 < 4096) :
    stepEvent s = exec (decode (s.mem.wordAt s.pc.toNat)) s := by
  rw [stepEvent, if_neg (by simp [hw]), withFetched_in hpc]

theorem stepEvent_fault (hw : s.waitKey = false) (hpc : 4096 ≤ s.pc.toNat + 1) :
    stepEvent s = .fault (.outOfBoundsAccess (max s.pc.toNat 4096)) := by
  rw [stepEvent, if_neg (by simp [hw]), withFetched_out hpc]

/-- A STEP that answers a next state polled, or fetched in bounds and ran one handler. -/
theorem stepEvent_next (h : stepEvent s = .next t) :
    (s.waitKey = true ∧ poll s = .next t) ∨
    (s.waitKey = false ∧ s.pc.toNat + 1 < 4096 ∧
      exec (decode (s.mem.wordAt s.pc.toNat)) s = .next t) := by
  cases hw : s.waitKey with
  | true => exact .inl ⟨rfl, by rwa [stepEvent_poll hw] at h⟩
  | false =>
    by_cases hpc : s.pc.toNat + 1 < 4096
    · exact .inr ⟨rfl, hpc, by rwa [stepEvent_exec hw hpc] at h⟩
    · rw [stepEvent_fault hw (by omega)] at h
      cases h

/-- What a step that answers a next state did: exactly one event of 00_scope.md R9. -/
theorem step_next (h : step s = .next t) :
    (s.nextEvent = .step ∧ stepEvent s.issued = .next t) ∨
    (s.nextEvent = .tick ∧ t = tickEvent s.issued) ∨
    (∃ k b, s.nextEvent = .key k b ∧ t = keyEvent k b s.issued) ∨
    (∃ a b, s.nextEvent = .load a b ∧ s.issued.mayLoad a = true ∧
      t = s.issued.setMem (s.mem.write a b)) ∨
    (s.nextEvent = .read ∧ t = s.issued) ∨
    (s.nextEvent = .reset ∧ t = resetEvent s.issued) := by
  cases he : s.nextEvent with
  | step => exact .inl ⟨rfl, by rwa [step_of_step he] at h⟩
  | tick =>
    rw [step_of_tick he] at h
    cases h
    exact .inr (.inl ⟨rfl, rfl⟩)
  | key k b =>
    rw [step_of_key he] at h
    cases h
    exact .inr (.inr (.inl ⟨k, b, rfl, rfl⟩))
  | load a b =>
    rw [step_of_load he, loadEvent] at h
    split at h
    · cases h
      exact .inr (.inr (.inr (.inl ⟨a, b, rfl, ‹_›, rfl⟩)))
    · cases h
  | read =>
    rw [step_of_read he] at h
    cases h
    exact .inr (.inr (.inr (.inr (.inl ⟨rfl, rfl⟩))))
  | reset =>
    rw [step_of_reset he] at h
    cases h
    exact .inr (.inr (.inr (.inr (.inr ⟨rfl, rfl⟩))))

/-- What LOAD needs (20_memory.md R52). -/
theorem mayLoad_iff {a : Nat} :
    s.mayLoad a = true ↔ s.host.started = false ∧ config.programStart ≤ a ∧ a < 4096 := by
  simp [State.mayLoad, and_assoc]

end Sys2Proof.Machine
end

