-- ==== Sys2Proof/Tests/Slice0.lean ====
section
/-!
SUPPORT. Tests: the well-formedness smoke test, the decoding of one word written out for every
constructor, single steps taken from the vectors of spec/95_test_vectors.md, and for every statement with
hypotheses a state and operands that meet them. Expected results are the spec's, never the model's own.
-/

namespace Sys2Proof.Tests

open Sys2Proof Sys2Proof.Machine

/-! ## Well-formedness (30_encoding.md R70, R71) -/

theorem test_sys_00E0_ill_formed : (Instr.sys 0x0E0).wellFormed = false := by decide
theorem test_sys_00EE_ill_formed : (Instr.sys 0x0EE).wellFormed = false := by decide
theorem test_sys_00E1_well_formed : (Instr.sys 0x0E1).wellFormed = true := by decide
theorem test_nop_recognised_ill_formed :
    [0x0123, 0x1234, 0x5120, 0x8124, 0x812E, 0x9120, 0xD125, 0xE19E, 0xF165].all
      (fun w => (Instr.nop w).wellFormed == false) = true := by decide
/-- Vector F10 and F9. -/
theorem test_nop_unrecognised_well_formed :
    [0x5121, 0x8128, 0x812F, 0x9121, 0xE19F, 0xE1A0, 0xF100, 0xF11F, 0xF175, 0xF185, 0xFFFF].all
      (fun w => (Instr.nop w).wellFormed) = true := by decide

/-! ## Decoding: words written out from the patterns of 30_encoding.md R68, digit by digit -/

theorem test_decode_family0 : decode 0x00E0 = .cls ∧ decode 0x00EE = .ret ∧ decode 0x00E1 = .sys 0x0E1 ∧
    decode 0x0000 = .sys 0x000 ∧ decode 0x0FFF = .sys 0xFFF := by decide
theorem test_decode_nnn : decode 0x1ABC = .jp 0xABC ∧ decode 0x2ABC = .call 0xABC ∧
    decode 0xAABC = .ldI 0xABC ∧ decode 0xBABC = .jpV0 0xABC := by decide
theorem test_decode_xnn : decode 0x3A7C = .seImm 10 0x7C ∧ decode 0x4A7C = .sneImm 10 0x7C ∧
    decode 0x6A7C = .ldImm 10 0x7C ∧ decode 0x7A7C = .addImm 10 0x7C ∧ decode 0xCA7C = .rnd 10 0x7C := by
  decide
theorem test_decode_skips : decode 0x5AB0 = .seReg 10 11 ∧ decode 0x9AB0 = .sneReg 10 11 ∧
    decode 0xEA9E = .skp 10 ∧ decode 0xEAA1 = .sknp 10 := by decide
theorem test_decode_alu : decode 0x8AB0 = .ldReg 10 11 ∧ decode 0x8AB1 = .orReg 10 11 ∧
    decode 0x8AB2 = .andReg 10 11 ∧ decode 0x8AB3 = .xorReg 10 11 ∧ decode 0x8AB4 = .addReg 10 11 ∧
    decode 0x8AB5 = .subReg 10 11 ∧ decode 0x8AB6 = .shrReg 10 11 ∧ decode 0x8AB7 = .subnReg 10 11 ∧
    decode 0x8ABE = .shlReg 10 11 := by decide
theorem test_decode_draw : decode 0xDABC = .drw 10 11 12 := by decide
theorem test_decode_familyF : decode 0xFA07 = .ldVxDT 10 ∧ decode 0xFA0A = .ldVxK 10 ∧
    decode 0xFA15 = .ldDTVx 10 ∧ decode 0xFA18 = .ldSTVx 10 ∧ decode 0xFA1E = .addIVx 10 ∧
    decode 0xFA29 = .ldFVx 10 ∧ decode 0xFA33 = .ldBVx 10 ∧ decode 0xFA55 = .storeRegs 10 ∧
    decode 0xFA65 = .loadRegs 10 := by decide
/-- Vectors F9, F10: words of no row. -/
theorem test_decode_nop : decode 0x5121 = .nop 0x5121 ∧ decode 0x812F = .nop 0x812F ∧
    decode 0x9121 = .nop 0x9121 ∧ decode 0xE19F = .nop 0xE19F ∧ decode 0xF185 = .nop 0xF185 := by decide
/-- Big-endian bytes (20_memory.md R45), and the words a table row may give fewer bits. -/
theorem test_decode_bytes : decodeBytes [0x12, 0x34, 0x99] = .ok (.jp 0x234, [0x99]) ∧
    decodeBytes [0x12] = .error .tooShort ∧ decodeTableWord 16 0x8124 = some (.addReg 1 2) := by
  refine ⟨?_, ?_, ?_⟩ <;> rfl

/-! ## One step from a small state -/

/-- RESET with some registers preset. -/
def withRegs (rs : List (Reg × Byte)) : State :=
  rs.foldl (fun s r => s.setReg r.1 r.2) State.reset

/-- A state with some bytes of memory preset. -/
def withBytes (a : Nat) (bs : List Byte) (s : State) : State := s.setMem (s.mem.writeBytes a bs)

/-- A state with some pixels on. -/
def withPixels (ps : List (Fin 32 × Fin 64)) (s : State) : State :=
  ps.foldl (fun s p => s.setDisp (s.disp.flip p.1 p.2)) s

/-- A state with `sp` and one slot preset. -/
def withStack (sp : Fin 17) (k : Fin 16) (a : Word16) (s : State) : State :=
  { s with sp := sp, stack := s.stack.set k.val a k.isLt }

/-- A state whose host issues these events next. -/
def withScript (es : List HostEvent) (s : State) : State :=
  s.setHost { started := false, script := es }

/-- The word under test stands at `0x200`, as the vectors say. -/
def atStart (w : Word16) (s : State) : State := s.setMem (s.mem.writeWord 0x200 w)

/-- One step answers a next state of which `p` holds. -/
def stepGives (s : State) (p : State → Bool) : Bool :=
  match step s with
  | .next t => p t
  | .fault _ => false
  | .refused _ => false

/-- One step raises `f`. -/
def stepRaises (s : State) (f : Fault) : Bool :=
  match step s with
  | .next _ => false
  | .fault g => g == f
  | .refused _ => false

/-! ### Fetch and no-ops -/

/-- F1: the fetch is big-endian. -/
theorem test_fetch_big_endian : stepGives (withBytes 0x200 [0x12, 0x34] State.reset)
    (fun t => t.pc == 0x234) = true := by decide
/-- F2: the last two bytes of memory can be fetched. -/
theorem test_fetch_last_two_bytes :
    stepGives (withBytes 0xFFE [0x60, 0x07] (State.reset.setPc 0xFFE))
      (fun t => t.reg 0 == 7 && t.pc == 0x1000) = true := by decide
/-- F3, F4. -/
theorem test_fetch_out_of_bounds : stepRaises (State.reset.setPc 0xFFF) (.outOfBoundsAccess 0x1000) = true ∧
    stepRaises (State.reset.setPc 0x1000) (.outOfBoundsAccess 0x1000) = true ∧
    stepRaises (State.reset.setPc 0x10FE) (.outOfBoundsAccess 0x10FE) = true := by decide
/-- F5: an odd `pc`. -/
theorem test_fetch_odd_pc : stepGives (withBytes 0x201 [0x6A, 0x55] (State.reset.setPc 0x201))
    (fun t => t.reg 10 == 0x55 && t.pc == 0x203) = true := by decide
/-- F7, F8: the legacy family. -/
theorem test_sys : stepGives (atStart 0x0FFF State.reset) (fun t => t.pc == 0x202) = true ∧
    stepGives (atStart 0x00E1 (withPixels [(3, 4)] State.reset))
      (fun t => t.pc == 0x202 && t.pixel 3 4) = true := by decide
/-- F9: an unrecognised word is no skip. -/
theorem test_nop : stepGives (atStart 0x5121 State.reset) (fun t => t.pc == 0x202) = true := by decide
/-- A step with nothing loaded (F11, its first STEP). -/
theorem test_reset_runs_sys : stepGives State.reset (fun t => t.pc == 0x202) = true := by decide

/-! ### Screen and flow -/

/-- S7. -/
theorem test_cls : stepGives (atStart 0x00E0 (withPixels [(0, 0), (31, 63), (5, 6)] State.reset))
    (fun t => !t.pixel 0 0 && !t.pixel 31 63 && !t.pixel 5 6 && t.pc == 0x202) = true := by decide
/-- J7: the slot keeps its value. J6: the empty stack. -/
theorem test_ret : stepGives (atStart 0x00EE (withStack 2 1 0x0456 State.reset))
    (fun t => t.sp == 1 && t.pc == 0x458 && t.slot 1 == 0x0456) = true := by decide
theorem test_ret_underflow : stepRaises (atStart 0x00EE State.reset) (.stackUnderflow 0x200) = true := by
  decide
/-- J3, J4. -/
theorem test_call : stepGives (atStart 0x2ABC State.reset)
      (fun t => t.sp == 1 && t.pc == 0xABC && t.slot 0 == 0x200) = true ∧
    stepGives (atStart 0x2300 (withStack 15 0 0 State.reset))
      (fun t => t.sp == 16 && t.pc == 0x300 && t.slot 15 == 0x200) = true := by decide
/-- J5. -/
theorem test_call_overflow :
    stepRaises (atStart 0x2300 (withStack 16 0 0 State.reset)) (.stackOverflow 0x200) = true := by decide
/-- J1, J2. -/
theorem test_jp : stepGives (atStart 0x1200 State.reset) (fun t => t.pc == 0x200) = true ∧
    stepGives (atStart 0x1FFF State.reset) (fun t => t.pc == 0xFFF) = true := by decide
/-- J10, J11: the offset is `V0`, and nothing is masked. -/
theorem test_jpV0 : stepGives (atStart 0xBFFF (withRegs [(0, 0xFF)])) (fun t => t.pc == 0x10FE) = true ∧
    stepGives (atStart 0xB300 (withRegs [(3, 0x40)])) (fun t => t.pc == 0x300) = true := by decide

/-! ### Skips -/

/-- K1s, K2s. -/
theorem test_seImm : stepGives (atStart 0x332A (withRegs [(3, 0x2A)])) (fun t => t.pc == 0x204) = true ∧
    stepGives (atStart 0x332A (withRegs [(3, 0x2B)])) (fun t => t.pc == 0x202) = true := by decide
/-- K3s, K4s. -/
theorem test_sneImm : stepGives (atStart 0x432A (withRegs [(3, 0x2A)])) (fun t => t.pc == 0x202) = true ∧
    stepGives (atStart 0x432A State.reset) (fun t => t.pc == 0x204) = true := by decide
/-- K5s, K6s. -/
theorem test_seReg : stepGives (atStart 0x5120 (withRegs [(1, 7), (2, 7)])) (fun t => t.pc == 0x204) = true ∧
    stepGives (atStart 0x5120 (withRegs [(1, 7), (2, 8)])) (fun t => t.pc == 0x202) = true := by decide
/-- K8s, K9s. -/
theorem test_sneReg : stepGives (atStart 0x9120 (withRegs [(1, 7), (2, 8)])) (fun t => t.pc == 0x204) = true ∧
    stepGives (atStart 0x9120 (withRegs [(1, 7), (2, 7)])) (fun t => t.pc == 0x202) = true := by decide

/-! ### Immediates and ALU -/

/-- I1. -/
theorem test_ldImm : stepGives (atStart 0x6F7F State.reset)
    (fun t => t.reg 15 == 0x7F && t.pc == 0x202) = true := by decide
/-- S2 and I5: no flag. -/
theorem test_addImm : stepGives (atStart 0x700A (withRegs [(0, 0xFA), (15, 9)]))
      (fun t => t.reg 0 == 4 && t.reg 15 == 9) = true ∧
    stepGives (atStart 0x7F03 (withRegs [(15, 0xFE)])) (fun t => t.reg 15 == 1) = true := by decide
/-- A1. -/
theorem test_ldReg : stepGives (atStart 0x8120 (withRegs [(1, 1), (2, 0x33)]))
    (fun t => t.reg 1 == 0x33 && t.reg 2 == 0x33) = true := by decide
/-- A2, A3, A4: VF stays. -/
theorem test_orReg : stepGives (atStart 0x8121 (withRegs [(1, 0xF0), (2, 0x0F), (15, 1)]))
    (fun t => t.reg 1 == 0xFF && t.reg 15 == 1) = true := by decide
theorem test_andReg : stepGives (atStart 0x8122 (withRegs [(1, 0xF0), (2, 0x3C), (15, 1)]))
    (fun t => t.reg 1 == 0x30 && t.reg 15 == 1) = true := by decide
theorem test_xorReg : stepGives (atStart 0x8123 (withRegs [(1, 0xF0), (2, 0x3C), (15, 1)]))
    (fun t => t.reg 1 == 0xCC && t.reg 15 == 1) = true := by decide
/-- S3 and A10: with `X = 15` the carry stays. -/
theorem test_addReg : stepGives (atStart 0x8124 (withRegs [(1, 0xC8), (2, 0x64)]))
      (fun t => t.reg 1 == 0x2C && t.reg 15 == 1) = true ∧
    stepGives (atStart 0x8F24 (withRegs [(15, 0xF0), (2, 0x05)])) (fun t => t.reg 15 == 0) = true := by decide
/-- A11: the old VF is the addend. -/
theorem test_addReg_old_flag : stepGives (atStart 0x81F4 (withRegs [(1, 1), (15, 1)]))
    (fun t => t.reg 1 == 2 && t.reg 15 == 0) = true := by decide
/-- S4, A12. -/
theorem test_subReg : stepGives (atStart 0x8125 (withRegs [(1, 5), (2, 10)]))
      (fun t => t.reg 1 == 0xFB && t.reg 15 == 0) = true ∧
    stepGives (atStart 0x8125 (withRegs [(1, 0x10), (2, 0x10)]))
      (fun t => t.reg 1 == 0 && t.reg 15 == 1) = true := by decide
/-- A18, A22. -/
theorem test_shrReg : stepGives (atStart 0x8126 (withRegs [(1, 0xAA), (2, 5)]))
      (fun t => t.reg 1 == 2 && t.reg 15 == 1 && t.reg 2 == 5) = true ∧
    stepGives (atStart 0x8F26 (withRegs [(2, 3)])) (fun t => t.reg 15 == 1) = true := by decide
/-- A15, A16. -/
theorem test_subnReg : stepGives (atStart 0x8127 (withRegs [(1, 5), (2, 10)]))
      (fun t => t.reg 1 == 5 && t.reg 15 == 1) = true ∧
    stepGives (atStart 0x8127 (withRegs [(1, 10), (2, 5)]))
      (fun t => t.reg 1 == 0xFB && t.reg 15 == 0) = true := by decide
/-- A23, A25. -/
theorem test_shlReg : stepGives (atStart 0x812E (withRegs [(2, 0x81)]))
      (fun t => t.reg 1 == 2 && t.reg 15 == 1) = true ∧
    stepGives (atStart 0x812E (withRegs [(2, 0x7F)]))
      (fun t => t.reg 1 == 0xFE && t.reg 15 == 0) = true := by decide

/-! ### Address register, random, timers -/

/-- X1. -/
theorem test_ldI : stepGives (atStart 0xAFFF State.reset) (fun t => t.I == 0x0FFF && t.pc == 0x202) = true := by
  decide
/-- X3, X5. -/
theorem test_addIVx : stepGives (atStart 0xF21E ((withRegs [(2, 1)]).setI 0x0FFF))
      (fun t => t.I == 0x1000 && t.reg 15 == 0) = true ∧
    stepGives (atStart 0xF21E ((withRegs [(2, 0xFF)]).setI 0xFF80)) (fun t => t.I == 0x007F) = true := by decide
/-- X7, X9. -/
theorem test_ldFVx : stepGives (atStart 0xF429 (withRegs [(4, 0x0F)])) (fun t => t.I == 0x009B) = true ∧
    stepGives (atStart 0xF429 (withRegs [(4, 0xFF)])) (fun t => t.I == 0x054B) = true := by decide
/-- X10, X13, the random byte given. -/
theorem test_rnd_byte : (randomAssign 0xB7 1 0x0F State.reset).reg 1 = 0x07 ∧
    (randomAssign 0xFF 1 0xA5 State.reset).reg 1 = 0xA5 := by decide
/-- X11: whatever the byte. -/
theorem test_rnd_step : stepGives (atStart 0xC100 State.reset)
    (fun t => t.pc == 0x202 && t.draws == 1) = true := by decide
/-- T1, T7. -/
theorem test_ldDTVx : stepGives (atStart 0xF515 (withRegs [(5, 0x3C)]))
      (fun t => t.DT == 0x3C && t.ST == 0) = true ∧
    stepGives (atStart 0xF015 (State.reset.setDT 5)) (fun t => t.DT == 0) = true := by decide
/-- T2. -/
theorem test_ldVxDT : stepGives (atStart 0xF507 (State.reset.setDT 0x3C))
    (fun t => t.reg 5 == 0x3C && t.DT == 0x3C) = true := by decide
/-- T3. -/
theorem test_ldSTVx : stepGives (atStart 0xF018 (withRegs [(0, 2)]))
    (fun t => t.ST == 2 && t.soundOn) = true := by decide

/-! ### Memory transfers -/

/-- M1. -/
theorem test_ldBVx : stepGives (atStart 0xF033 ((withRegs [(0, 0xFE)]).setI 0x300))
    (fun t => t.mem.readBytes 0x300 4 == [2, 5, 4, 0]) = true := by decide
/-- M5, M6. -/
theorem test_ldBVx_out_of_bounds :
    stepRaises (atStart 0xF033 (State.reset.setI 0xFFE)) (.outOfBoundsAccess 0x1000) = true ∧
    stepRaises (atStart 0xF033 (State.reset.setI 0xFFFF)) (.outOfBoundsAccess 0xFFFF) = true := by decide
/-- M7. -/
theorem test_storeRegs :
    stepGives (atStart 0xF255 (withBytes 0x403 [0x99] ((withRegs [(0, 1), (1, 2), (2, 3)]).setI 0x400)))
      (fun t => t.mem.readBytes 0x400 4 == [1, 2, 3, 0x99] && t.I == 0x400) = true := by decide
/-- M9, M10. -/
theorem test_storeRegs_edge :
    stepRaises (atStart 0xFF55 (State.reset.setI 0xFF1)) (.outOfBoundsAccess 0x1000) = true ∧
    stepGives (atStart 0xF055 ((withRegs [(0, 0x77)]).setI 0xFFF))
      (fun t => t.mem.read 0xFFF == 0x77) = true := by decide
/-- M11. -/
theorem test_loadRegs :
    stepGives (atStart 0xF265 (withBytes 0x300 [2, 5, 4, 6] ((withRegs [(3, 0x99)]).setI 0x300)))
      (fun t => t.reg 0 == 2 && t.reg 1 == 5 && t.reg 2 == 4 && t.reg 3 == 0x99 && t.I == 0x300) = true := by
  decide
/-- M12: the glyph of 0. M14. -/
theorem test_loadRegs_font : stepGives (atStart 0xF465 (State.reset.setI 0x50))
      (fun t => [t.reg 0, t.reg 1, t.reg 2, t.reg 3, t.reg 4] == [0xF0, 0x90, 0x90, 0x90, 0xF0]) = true ∧
    stepRaises (atStart 0xF065 (State.reset.setI 0x1000)) (.outOfBoundsAccess 0x1000) = true := by decide

/-! ### Draw -/

/-- DR4: the sprite wraps at the right edge. DR5: and at the bottom. -/
theorem test_drw_wraps :
    stepGives (atStart 0xD011 (withBytes 0x300 [0xFF] ((withRegs [(0, 60)]).setI 0x300)))
      (fun t => [0, 3, 60, 63].all (t.pixel 0) && !t.pixel 0 4 && !t.pixel 0 59) = true ∧
    stepGives (atStart 0xD012 (withBytes 0x300 [0x80, 0x80] ((withRegs [(1, 31)]).setI 0x300)))
      (fun t => t.pixel 31 0 && t.pixel 0 0 && !t.pixel 1 0 && t.reg 15 == 0) = true := by decide
/-- DR8, DR9: a collision is a 1 bit on a lit pixel. -/
theorem test_drw_collides :
    stepGives (atStart 0xD011 (withBytes 0x300 [0xC0] (withPixels [(0, 0)] (State.reset.setI 0x300))))
      (fun t => !t.pixel 0 0 && t.pixel 0 1 && t.reg 15 == 1) = true ∧
    stepGives (atStart 0xD011 (withBytes 0x300 [0x40] (withPixels [(0, 0)] (State.reset.setI 0x300))))
      (fun t => t.pixel 0 0 && t.pixel 0 1 && t.reg 15 == 0) = true := by decide
/-- DR11, DR13, DR14: no row, a row out of bounds, and VF as the column. -/
theorem test_drw_edges :
    stepGives (atStart 0xD010 ((withRegs [(15, 1)]).setI 0xFFFF))
      (fun t => t.reg 15 == 0 && t.pc == 0x202) = true ∧
    stepRaises (atStart 0xD012 (State.reset.setI 0xFFF)) (.outOfBoundsAccess 0x1000) = true ∧
    stepGives (atStart 0xDF11 (withBytes 0x300 [0x80] ((withRegs [(15, 5), (1, 2)]).setI 0x300)))
      (fun t => t.pixel 2 5 && t.reg 15 == 0) = true := by decide

/-! ### Keypad -/

/-- K1, K4: the low nibble names the key. -/
theorem test_skp : stepGives (atStart 0xE29E ((withRegs [(2, 7)]).setKey 7 true))
      (fun t => t.pc == 0x204) = true ∧
    stepGives (atStart 0xE29E ((withRegs [(2, 0x1A)]).setKey 10 true)) (fun t => t.pc == 0x204) = true := by
  decide
/-- K3, and the key not pressed. -/
theorem test_sknp : stepGives (atStart 0xE2A1 ((withRegs [(2, 7)]).setKey 7 true))
      (fun t => t.pc == 0x202) = true ∧
    stepGives (atStart 0xE2A1 (withRegs [(2, 7)])) (fun t => t.pc == 0x204) = true := by decide
/-- K5: no key pressed. -/
theorem test_ldVxK_suspends : stepGives (atStart 0xF30A State.reset)
    (fun t => t.waitKey && t.waitReg == 3 && t.pc == 0x200) = true := by decide
/-- K9: the lowest pressed key, at once. -/
theorem test_ldVxK_lowest : stepGives (atStart 0xF30A ((State.reset.setKey 4 true).setKey 12 true))
    (fun t => t.reg 3 == 4 && !t.waitKey && t.pc == 0x202) = true := by decide
/-- K7, K6: the polling STEP. -/
theorem test_poll : stepGives (atStart 0xF30A ((State.reset.setWait 3).setKey 9 true))
      (fun t => t.reg 3 == 9 && !t.waitKey && t.pc == 0x202) = true ∧
    stepGives (atStart 0xF30A (State.reset.setWait 3))
      (fun t => t.reg 3 == 0 && t.waitKey && t.waitReg == 3 && t.pc == 0x200) = true := by decide

/-! ### Events of the host -/

/-- T4, T5, and K11: the timers run while a key is waited for. -/
theorem test_tick : stepGives (withScript [.tick] ((State.reset.setDT 2).setWait 3))
      (fun t => t.DT == 1 && t.ST == 0 && t.waitKey) = true ∧
    stepGives (withScript [.tick] (State.reset.setST 1))
      (fun t => t.DT == 0 && t.ST == 0 && !t.soundOn) = true := by decide
/-- K10: KEY alone ends no wait (70_reset_and_hazards.md R167). -/
theorem test_key : stepGives (withScript [.key 9 true] (State.reset.setWait 3))
    (fun t => t.keyDown 9 && !t.keyDown 8 && t.waitKey) = true := by decide
/-- LOAD, and a LOAD below the program area (20_memory.md R52). -/
theorem test_load : stepGives (withScript [.load 0x200 0x12] State.reset)
      (fun t => t.mem.readBytes 0x1FF 3 == [0, 0x12, 0]) = true ∧
    step (withScript [.load 0x1FF 0x12] State.reset) = .refused (.loadOutsideContract 0x1FF) :=
  ⟨by decide, rfl⟩
/-- RESET after work was done (70_reset_and_hazards.md R160). -/
theorem test_reset : stepGives (withScript [.reset] (atStart 0x1234 ((withRegs [(3, 9)]).setPc 0x456)))
    (fun t => t.mem == [] && t.reg 3 == 0 && t.pc == 0x200) = true := by decide
/-- The words placed by `withFetchWord` run next, from RESET and from a suspended state out of bounds. -/
theorem test_withFetchWord : stepGives (State.reset.withFetchWord 16 0x6A55) (fun t => t.reg 10 == 0x55) = true ∧
    stepGives ((((withScript [.tick] State.reset).setDT 5).setWait 3).setPc 0x1000 |>.withFetchWord 16 0x6A55)
      (fun t => t.reg 10 == 0x55 && t.DT == 5) = true := by decide
/-- The codes and info values of 60_exceptions.md R130 to R133. -/
theorem test_codes : (Fault.stackOverflow 0x200).code = 1 ∧ (Fault.stackUnderflow 0x200).code = 2 ∧
    (Fault.outOfBoundsAccess 0x1000).code = 3 ∧ (Fault.outOfBoundsAccess 0x1000).info = 0x1000 := by decide
/-- `SHIFT_SOURCE = X`, the alternative of vector A18. -/
theorem test_shift_source_x :
    (match shrWith { config with shiftSource := .x } 1 2 (withRegs [(1, 0xAA), (2, 5)]) with
      | .next t => t.reg 1 == 0x55 && t.reg 15 == 0
      | .fault _ => false
      | .refused _ => false) = true := by decide

/-! ## Witnesses: states and operands that meet the hypotheses of the statements, clause by clause -/

theorem witness_ReturnGoesPastTheCallOrUnderflows : State.reset.sp.val = 0 ∧
    (withStack 1 0 0 State.reset).sp.val = (0 : Fin 16).val + 1 ∧
    (withStack 16 0 0 State.reset).sp.val = (15 : Fin 16).val + 1 := by decide

theorem witness_CallPushesItsAddressOrOverflows : (withStack 16 0 0 State.reset).sp.val = 16 ∧
    State.reset.sp.val = (0 : Fin 16).val ∧
    (withStack 15 0 0 State.reset).sp.val = (15 : Fin 16).val := by decide

/-- The state after a CALL in the last free slot, where a RET finds it. -/
theorem witness_CallThenReturnResumesAfterTheCall :
    (withStack 15 0 0 State.reset).sp.val = (15 : Fin 16).val ∧
    ∃ t, exec (.call 0x300) (withStack 15 0 0 State.reset) = .next t ∧
      t.sp.val = (15 : Fin 16).val + 1 ∧ t.slot 15 = t.slot 15 :=
  ⟨by decide, _, rfl, by decide, rfl⟩

/-- Program P5 of the vectors, and the same at the highest address a CALL can be fetched from. -/
theorem witness_SeventeenthNestedCallOverflows :
    ((atStart 0x2200 State.reset).host.script = [] ∧ (atStart 0x2200 State.reset).waitKey = false ∧
      (atStart 0x2200 State.reset).sp.val = 0 ∧
      (atStart 0x2200 State.reset).pc.toNat = (0x200 : Addr12).toNat ∧ (0x200 : Addr12).toNat + 1 < 4096 ∧
      (atStart 0x2200 State.reset).mem.wordAt (0x200 : Addr12).toNat = encode (.call 0x200)) ∧
    ((withBytes 0xFFE [0x2F, 0xFE] (State.reset.setPc 0xFFE)).host.script = [] ∧
      (withBytes 0xFFE [0x2F, 0xFE] (State.reset.setPc 0xFFE)).waitKey = false ∧
      (withBytes 0xFFE [0x2F, 0xFE] (State.reset.setPc 0xFFE)).sp.val = 0 ∧
      (withBytes 0xFFE [0x2F, 0xFE] (State.reset.setPc 0xFFE)).pc.toNat = (0xFFE : Addr12).toNat ∧
      (0xFFE : Addr12).toNat + 1 < 4096 ∧
      (withBytes 0xFFE [0x2F, 0xFE] (State.reset.setPc 0xFFE)).mem.wordAt (0xFFE : Addr12).toNat =
        encode (.call 0xFFE)) := by decide

/-- Each condition holds in one state and fails in another. -/
theorem witness_RegisterSkipsFollowTheirCondition :
    (withRegs [(3, 0x2A)]).reg 3 = 0x2A ∧ (withRegs [(3, 0x2B)]).reg 3 ≠ 0x2A ∧
    (withRegs [(1, 7), (2, 7)]).reg 1 = (withRegs [(1, 7), (2, 7)]).reg 2 ∧
    (withRegs [(1, 7), (2, 8)]).reg 1 ≠ (withRegs [(1, 7), (2, 8)]).reg 2 := by decide

/-- A key index above 15 in the register, the key pressed and not pressed. -/
theorem witness_KeySkipsTestTheLowNibbleKey :
    (10 : KeyIndex).val = ((withRegs [(2, 0x1A)]).reg 2).toNat % 16 ∧
    ((withRegs [(2, 0x1A)]).setKey 10 true).keyDown 10 = true ∧
    (withRegs [(2, 0x1A)]).keyDown 10 = false := by decide

theorem witness_AddImmediateWrapsWithoutFlag : (15 : Reg) ≠ 0 := by decide

/-- This machine, and a machine with its font at 0. -/
theorem witness_GlyphAddressNeverWraps : config.valid = true ∧
    Config.valid { config with fontBase := 0 } = true := by decide

/-- `SHIFT_SOURCE` `Y` and `X` with different registers, and a shift with `X = Y`. -/
theorem witness_ShiftsFollowTheConfiguredSource :
    (config.shiftSource = .y ∧ (2 : Reg) = 2 ∧ (1 : Reg) ≠ 2) ∧
    (({ config with shiftSource := .x } : Config).shiftSource = .x ∧ (1 : Reg) = 1) ∧
    (config.shiftSource = .y ∧ (15 : Reg) = 15) := by decide

/-- The first byte of glyph 0 and the last of glyph F, with the word of LD F loaded, which a STEP runs. -/
theorem witness_GlyphAddressLeadsToTheGlyph :
    ((∀ a, 0x50 ≤ a → a ≤ 0x9F → (atStart 0xF429 (withRegs [(4, 0)])).mem.read a = resetByte a) ∧
      ((atStart 0xF429 (withRegs [(4, 0)])).reg 4).toNat ≤ 15 ∧ 0 < 5) ∧
    ((∀ a, 0x50 ≤ a → a ≤ 0x9F → (atStart 0xF429 (withRegs [(4, 15)])).mem.read a = resetByte a) ∧
      ((atStart 0xF429 (withRegs [(4, 15)])).reg 4).toNat ≤ 15 ∧ 4 < 5) ∧
    (atStart 0xF429 (withRegs [(4, 15)])).nextInstr = .ldFVx 4 := by
  have font (rs : List (Reg × Byte)) (h : (atStart 0xF429 (withRegs rs)).mem = (atStart 0xF429 State.reset).mem) :
      ∀ a, 0x50 ≤ a → a ≤ 0x9F → (atStart 0xF429 (withRegs rs)).mem.read a = resetByte a := by
    intro a h1 h2
    rw [h]
    show Memory.read [(0x200, 0xF4), (0x201, 0x29)] a = resetByte a
    rw [Memory.read, if_neg (by omega), Memory.read, if_neg (by omega), Memory.read]
  exact ⟨⟨font _ rfl, by decide, by decide⟩, ⟨font _ rfl, by decide, by decide⟩, by decide⟩

theorem witness_BcdStoresThreeDigits : State.reset.mem.wf = true ∧
    (State.reset.setI 0xFFD).base + 2 < 4096 ∧ 4096 ≤ (State.reset.setI 0xFFE).base + 2 ∧
    4096 ≤ (State.reset.setI 0xFFFF).base + 2 := by decide

theorem witness_StoreRegistersWritesThemInOrder : State.reset.mem.wf = true ∧
    (State.reset.setI 0xFF0).base + (15 : Reg).val < 4096 ∧
    (State.reset.setI 0xFFF).base + (0 : Reg).val < 4096 ∧
    4096 ≤ (State.reset.setI 0xFF1).base + (15 : Reg).val ∧ (3 : Reg) ≤ 15 := by decide

theorem witness_LoadRegistersReadsThemInOrder :
    (State.reset.setI 0xFF0).base + (15 : Reg).val < 4096 ∧
    4096 ≤ (State.reset.setI 0x1000).base + (0 : Reg).val := by decide

theorem witness_StoreThenLoadRestoresRegisters : State.reset.mem.wf = true ∧
    (State.reset.setI 0xFF0).base + (15 : Reg).val < 4096 ∧
    ∃ t, exec (.storeRegs 15) (State.reset.setI 0xFF0) = .next t ∧
      t.I = (State.reset.setI 0xFF0).I ∧ (∀ a, t.mem.read a = t.mem.read a) ∧ (7 : Reg) ≤ 15 :=
  ⟨by decide, by decide, _, rfl, rfl, fun _ => rfl, by decide⟩

/-- Program P6 of the vectors at its store. -/
def beforeStore : State :=
  withBytes 0x206 [0xF1, 0x55] (((withRegs [(0, 0x62), (1, 0x2A)]).setI 0x208).setPc 0x206)

theorem witness_StoredCodeIsFetchedNext : beforeStore.mem.wf = true ∧ beforeStore.nextEvent = .step ∧
    beforeStore.waitKey = false ∧ beforeStore.pc.toNat + 1 < 4096 ∧ beforeStore.nextInstr = .storeRegs 1 ∧
    1 ≤ (1 : Reg).val ∧ beforeStore.base = beforeStore.pc.toNat + 2 ∧
    beforeStore.base + (1 : Reg).val < 4096 ∧
    stepGives beforeStore (fun t => t.nextEvent == .step) = true := by decide

/-- No row at any `I`; the last byte of memory; the wrap at both edges; a pixel off the sprite; and one
row too many. -/
theorem witness_DrawXorsTheWrappedSprite :
    (((0 : Fin 16).val = 0 ∨ (State.reset.setI 0xFFFF).base + (0 : Fin 16).val - 1 < 4096) ∧
      ((1 : Fin 16).val = 0 ∨ (State.reset.setI 0xFFF).base + (1 : Fin 16).val - 1 < 4096)) ∧
    ((63 = ((withRegs [(0, 0xFF)]).reg 0).toNat % 64 ∧ 31 = ((withRegs [(1, 0xFF)]).reg 1).toNat % 32) ∧
      IsSpritePixel 63 31 1 7 0 6) ∧
    (∀ k c, k < 1 → c < 8 → ¬ IsSpritePixel 0 0 k c 1 0) ∧
    (0 < (15 : Fin 16).val ∧ 4096 ≤ (State.reset.setI 0xFF2).base + (15 : Fin 16).val - 1) := by
  refine ⟨by decide, ⟨by decide, by unfold IsSpritePixel; decide⟩, ?_, by decide⟩
  rintro k c hk hc ⟨h, -⟩
  simp at h
  omega

/-- No operand is VF; and VF is the column, 0 before and after a draw on a blank display. -/
theorem witness_DrawTwiceRestoresTheDisplay : ((0 : Reg) ≠ VF ∧ (1 : Reg) ≠ VF) ∧
    ((5 : Fin 16).val = 0 ∨ (State.reset.setI 0xFFB).base + (5 : Fin 16).val - 1 < 4096) ∧
    ((0 : Fin 16).val = 0 ∨ (State.reset.setI 0xFFFF).base + (0 : Fin 16).val - 1 < 4096) ∧
    (∃ t, exec (.drw VF 1 1) (State.reset.setI 0x50) = .next t ∧
      (t.reg VF).toNat % 64 = ((State.reset.setI 0x50).reg VF).toNat % 64 ∧
      (t.reg 1).toNat % 32 = ((State.reset.setI 0x50).reg 1).toNat % 32) ∧
    (∀ row col, (State.reset.setI 0x50).pixel row col = false) ∧
    (State.reset.setI 0x50).mem.read (0x50 + 0) ≠ 0 := by
  refine ⟨by decide, by decide, by decide, ⟨_, rfl, by decide, by decide⟩, fun row col => ?_, by decide⟩
  simp [State.pixel, Display.pixel, State.setI, State.reset]

theorem witness_WaitForKeyResolvesOrSuspends :
    IsLowestPressed 4 ((State.reset.setKey 4 true).setKey 12 true) ∧ IsLowestPressed 0 (State.reset.setKey 0 true) ∧
    (∀ k : KeyIndex, State.reset.keyDown k = false) := by
  unfold IsLowestPressed
  decide

theorem witness_PollingStepIsIdempotentUntilAKey :
    (State.reset.setWait 3).nextEvent = .step ∧ (State.reset.setWait 3).waitKey = true ∧
    IsLowestPressed 15 ((State.reset.setWait 3).setKey 15 true) ∧
    (∀ k : KeyIndex, (State.reset.setWait 3).keyDown k = false) := by
  unfold IsLowestPressed
  decide

/-- A machine suspended at its FX0A, with the host's next events. -/
def suspended (es : List HostEvent) : State :=
  ((atStart 0xF30A State.reset).setWait 3).setHost { started := true, script := es }

theorem suspended_inv (es : List HostEvent) : (suspended es).Inv where
  memory := (by decide : (suspended []).mem.wf = true)
  pc := (by decide : (suspended []).pc.toNat ≤ 4350)
  slots := (by decide : ∀ k : Fin 16, ((suspended []).slot k).toNat + 1 < 4096)
  wait _ := ⟨(by decide : (suspended []).pc.toNat + 1 < 4096), rfl,
    (by decide : (suspended []).nextInstr = .ldVxK 3)⟩

/-- A machine that meets the invariant and is not suspended. -/
def running (pc : Word16) (es : List HostEvent) : State :=
  (State.reset.setPc pc).setHost { started := true, script := es }

theorem running_inv {pc : Word16} (h : pc.toNat ≤ 4350) (es : List HostEvent) : (running pc es).Inv where
  memory := (by decide : State.reset.mem.wf = true)
  pc := h
  slots := (by decide : ∀ k : Fin 16, (State.reset.slot k).toNat + 1 < 4096)
  wait h' := absurd h' (by decide : ¬ State.reset.waitKey = true)

/-- A suspended machine that polls; a fetch out of bounds; a LOAD after a STEP. -/
theorem witness_WaitFlagIsRedundant :
    ((suspended []).Inv ∧ ∃ t, step (suspended []) = .next t) ∧
    ((running 0x10FE []).Inv ∧ step (running 0x10FE []) = .fault (.outOfBoundsAccess 0x10FE)) ∧
    ((suspended [.load 0x300 0]).Inv ∧
      step (suspended [.load 0x300 0]) = .refused (.loadOutsideContract 0x300)) :=
  ⟨⟨suspended_inv _, _, rfl⟩, ⟨running_inv (by decide) _, rfl⟩, ⟨suspended_inv _, rfl⟩⟩

/-- The last word of memory. -/
theorem witness_StepRunsTheDecodedInstruction :
    (withBytes 0xFFE [0x60, 0x07] (State.reset.setPc 0xFFE)).nextEvent = .step ∧
    (withBytes 0xFFE [0x60, 0x07] (State.reset.setPc 0xFFE)).waitKey = false ∧
    (withBytes 0xFFE [0x60, 0x07] (State.reset.setPc 0xFFE)).pc.toNat + 1 < 4096 ∧
    decodeBytes [(withBytes 0xFFE [0x60, 0x07] (State.reset.setPc 0xFFE)).mem.read 0xFFE,
      (withBytes 0xFFE [0x60, 0x07] (State.reset.setPc 0xFFE)).mem.read 0xFFF] = .ok (.ldImm 0 7, []) :=
  ⟨by decide, by decide, by decide, rfl⟩

/-- Both sides of the address named: only the second byte is missing, or both. -/
theorem witness_FetchOutOfBoundsRaises :
    (running 0xFFF []).nextEvent = .step ∧ (running 0xFFF []).waitKey = false ∧
    4096 ≤ (running 0xFFF []).pc.toNat + 1 ∧ ¬ 4096 ≤ (running 0xFFF []).pc.toNat ∧
    4096 ≤ (running 0x1000 []).pc.toNat := by decide

theorem witness_FetchWordRunsNext : State.reset.mem.wf = true ∧
    (atStart 0x1234 State.reset).mem.wf = true := by decide

theorem witness_ErrorsAreNotCuredByTimersOrKeys :
    stepEvent (atStart 0x00EE State.reset) = .fault (.stackUnderflow 0x200) ∧
    stepEvent (running 0xFFF []) = .fault (.outOfBoundsAccess 0x1000) := ⟨rfl, rfl⟩

/-- One instruction of each kind the statement names changes its piece of state. -/
theorem witness_OnlyTheNamedInstructionsWrite :
    (∃ t, exec (.drw 0 1 1) (State.reset.setI 0x50) = .next t ∧ ¬ Part.display.same (State.reset.setI 0x50) t) ∧
    (∃ t, exec (.storeRegs 0) (withRegs [(0, 1)]) = .next t ∧ ¬ Part.memory.same (withRegs [(0, 1)]) t) ∧
    (∃ t, exec (.call 0x300) State.reset = .next t ∧ ¬ Part.slots.same State.reset t ∧
      ¬ Part.stackIndex.same State.reset t) ∧
    (∃ t, exec (.ldI 0x300) State.reset = .next t ∧ ¬ Part.addressReg.same State.reset t) ∧
    (∃ t, exec (.ldDTVx 0) (withRegs [(0, 1)]) = .next t ∧ ¬ Part.delayTimer.same (withRegs [(0, 1)]) t) ∧
    (∃ t, exec (.ldSTVx 0) (withRegs [(0, 1)]) = .next t ∧ ¬ Part.soundTimer.same (withRegs [(0, 1)]) t) ∧
    (∃ t, exec (.ldVxK 3) State.reset = .next t ∧ ¬ Part.wait.same State.reset t) ∧
    (∃ t, exec (.rnd 1 0) State.reset = .next t ∧ ¬ Part.draws.same State.reset t) :=
  ⟨⟨_, rfl, fun h => absurd (h 0 0) (by decide)⟩, ⟨_, rfl, fun h => absurd (h 0) (by decide)⟩,
    ⟨_, rfl, fun h => absurd (h 0) (by decide), by unfold Part.same; decide⟩,
    ⟨_, rfl, by unfold Part.same; decide⟩, ⟨_, rfl, by unfold Part.same; decide⟩,
    ⟨_, rfl, by unfold Part.same; decide⟩, ⟨_, rfl, by unfold Part.same; decide⟩,
    ⟨_, rfl, by unfold Part.same; decide⟩⟩

theorem witness_OnlyFlagWritersAndDestinationsChangeVF :
    ∃ t, exec (.addReg 1 2) (withRegs [(1, 0xFF), (2, 1)]) = .next t ∧
      t.reg VF ≠ (withRegs [(1, 0xFF), (2, 1)]).reg VF :=
  ⟨_, rfl, by decide⟩

/-- A timer at 1 and a timer at 0. -/
theorem witness_TickDecrementsNonzeroTimers :
    (withScript [.tick] (State.reset.setDT 1)).nextEvent = .tick ∧
    (withScript [.tick] (State.reset.setDT 1)).DT.toNat ≠ 0 ∧
    (withScript [.tick] (State.reset.setDT 1)).ST.toNat = 0 ∧
    (withScript [.tick] (State.reset.setST 0xFF)).ST.toNat ≠ 0 ∧
    (withScript [.tick] (State.reset.setST 0xFF)).DT.toNat = 0 := by decide

theorem witness_TimersCountDownToZeroAndStay :
    (withScript [.tick, .tick, .step] State.reset).host.script = List.replicate 2 .tick ++ [.step] := by decide

theorem witness_KeyEventChangesOneKey : (withScript [.key 15 true] State.reset).nextEvent = .key 15 true := by
  decide

/-- The first and the last address of the program area before a STEP, and the three ways to leave the
contract. -/
theorem witness_LoadWritesOneProgramByteBeforeSteps :
    ((withScript [.load 0x200 7] State.reset).nextEvent = .load 0x200 7 ∧
      (withScript [.load 0x200 7] State.reset).mem.wf = true ∧
      (withScript [.load 0x200 7] State.reset).host.started = false ∧ 0x200 ≤ 0xFFF ∧ 0xFFF < 4096) ∧
    (running 0x200 [.load 0xFFF 7]).nextEvent = .load 0xFFF 7 ∧
    (running 0x200 [.load 0xFFF 7]).host.started = true ∧ 0x1FF < 0x200 ∧ 4096 ≤ 0x1000 := by decide

theorem witness_ReadsChangeNothing : (withScript [.read] State.reset).nextEvent = .read := by decide

/-- The bytes just below, in and just above the font table. -/
theorem witness_ResetSetsEveryPieceOfState : (withScript [.reset] State.reset).nextEvent = .reset ∧
    (0x4F < 0x50 ∨ 0xA0 ≤ 0x4F) ∧ (0xA0 < 0x50 ∨ 0xA0 ≤ 0xA0) ∧ 79 < 80 := by decide

/-- A suspended machine, a machine at the highest `pc`, and each of the host's events. -/
theorem witness_InvariantKeptByEveryEvent :
    ((suspended []).Inv ∧ ∃ t, step (suspended []) = .next t) ∧
    ((suspended [.key 9 true]).Inv ∧ ∃ t, step (suspended [.key 9 true]) = .next t) ∧
    ((running 4094 []).Inv ∧ ∃ t, step (running 4094 []) = .next t) ∧
    ((running 4350 [.reset]).Inv ∧ ∃ t, step (running 4350 [.reset]) = .next t) :=
  ⟨⟨suspended_inv _, _, rfl⟩, ⟨suspended_inv _, _, rfl⟩, ⟨running_inv (by decide) _, _, rfl⟩,
    ⟨running_inv (by decide) _, _, rfl⟩⟩

theorem witness_CanonicalMemoriesAreEqualWhenTheyReadAlike :
    (atStart 0x1234 State.reset).mem.wf = true ∧
    (∀ a, (atStart 0x1234 State.reset).mem.read a = (atStart 0x1234 State.reset).mem.read a) :=
  ⟨by decide, fun _ => rfl⟩

/-- `1200` at `0x200`, before a STEP and before a TICK. -/
theorem witness_FinishedProgramsStayFinished :
    (FinishedAt 0x200 (atStart 0x1200 State.reset) ∧ (atStart 0x1200 State.reset).nextEvent = .step) ∧
    (FinishedAt 0x200 (withScript [.tick] (atStart 0x1200 State.reset)) ∧
      (withScript [.tick] (atStart 0x1200 State.reset)).nextEvent ≠ .reset ∧
      (∀ a b, (withScript [.tick] (atStart 0x1200 State.reset)).nextEvent ≠ .load a b) ∧
      ∃ t, step (withScript [.tick] (atStart 0x1200 State.reset)) = .next t) := by
  refine ⟨⟨⟨by decide, by decide, by decide, by decide⟩, by decide⟩, ⟨by decide, by decide, by decide, by decide⟩,
    by decide, ?_, _, rfl⟩
  intro a b h
  exact HostEvent.noConfusion h

theorem witness_DecodeOfEncodeIsTheInstruction : (Instr.sys 0xFFF).wellFormed = true ∧
    (Instr.drw 15 0 15).wellFormed = true ∧ (Instr.nop 0xFFFF).wellFormed = true := by decide

/-- CLS matches the legacy row and the catch-all as well. -/
theorem witness_DecoderTakesTheMatchingRowOfLowestPriority :
    (decode 0x00E0).rowNumber = 0 ∧
    (opcodeTable[2]?.map (fun r => r.hits 0x00E0)) = some true ∧
    (opcodeTable[35]?.map (fun r => r.hits 0x00E0)) = some true := by decide

theorem witness_NoOpWordsAreExactlyTheEnumeratedOnes : unrecognised 0x812F = true ∧
    unrecognised 0x812E = false ∧ (0x0000 : Word16).toNat < 4096 ∧ (0x0FFF : Word16).toNat < 4096 := by decide

end Sys2Proof.Tests
end

section
/-!
What an instruction writes, said once: for each instruction the pieces of state it may write, and for each
named update of the state the pieces it writes. Outside the list every field is the very same data, which
for memory says more than reading alike.
-/

namespace Sys2Proof.Machine

variable {s t u : State}

/-! ## Strict frames -/

/-- The fields of a piece of state are the same data in `t` as in `s`. -/
def Part.kept (p : Part) (s t : State) : Prop :=
  match p with
  | .regs => t.V = s.V
  | .pc => t.pc = s.pc
  | .addressReg => t.I = s.I
  | .slots => t.stack = s.stack
  | .stackIndex => t.sp = s.sp
  | .delayTimer => t.DT = s.DT
  | .soundTimer => t.ST = s.ST
  | .display => t.disp = s.disp
  | .keypad => t.keys = s.keys
  | .wait => t.waitKey = s.waitKey ∧ t.waitReg = s.waitReg
  | .memory => t.mem = s.mem
  | .draws => t.draws = s.draws
  | .host => t.host = s.host

/-- A piece of state that holds the same data reads the same. -/
theorem Part.kept.same {p : Part} (h : p.kept s t) : p.same s t := by
  cases p with
  | regs => exact fun r => by rw [State.reg, State.reg, show t.V = s.V from h]
  | slots => exact fun k => by rw [State.slot, State.slot, show t.stack = s.stack from h]
  | display => exact fun row col => by rw [State.pixel, State.pixel, show t.disp = s.disp from h]
  | keypad => exact fun k => by rw [State.keyDown, State.keyDown, show t.keys = s.keys from h]
  | memory => exact fun a => by rw [show t.mem = s.mem from h]
  | pc | addressReg | stackIndex | delayTimer | soundTimer | wait | draws | host => exact h

theorem Part.kept_refl (p : Part) (s : State) : p.kept s s := by
  cases p with
  | wait => exact ⟨rfl, rfl⟩
  | _ => rfl

theorem Part.kept.trans {p : Part} (h : p.kept s t) (h' : p.kept t u) : p.kept s u := by
  cases p with
  | wait => exact ⟨h'.1.trans h.1, h'.2.trans h.2⟩
  | _ => exact Eq.trans h' h

/-- Every piece of state outside the list holds the same data in `t` as in `s`. -/
def OnlyWrites (written : List Part) (s t : State) : Prop := ∀ p : Part, p ∉ written → p.kept s t

/-- A strict frame is a frame. -/
theorem OnlyWrites.onlyChanges {l : List Part} (h : OnlyWrites l s t) : OnlyChanges l s t :=
  fun p hp => (h p hp).same

/-- A piece of state that differs is in the list. -/
theorem OnlyWrites.mem_of_not_same {l : List Part} (h : OnlyWrites l s t) {p : Part}
    (hp : ¬ p.same s t) : p ∈ l :=
  Classical.byContradiction fun hl => hp (h p hl).same

theorem OnlyWrites.mono {l l' : List Part} (h : OnlyWrites l s t) (hl : l ⊆ l') : OnlyWrites l' s t :=
  fun p hp => h p fun hp' => hp (hl hp')

/-- Two updates in a row write what either of them writes. -/
theorem OnlyWrites.trans {l l' : List Part} (h : OnlyWrites l s t) (h' : OnlyWrites l' t u) :
    OnlyWrites (l ++ l') s u := fun p hp =>
  have ⟨hl, hl'⟩ := not_or.mp fun hm => hp (List.mem_append.mpr hm)
  (h p hl).trans (h' p hl')

/-- The frame of the state that a meaning answers. -/
theorem OnlyWrites.of_next {l : List Part} (h : OnlyWrites l s u)
    (e : (.next u : Result) = .next t) : OnlyWrites l s t :=
  Host.Outcome.next.inj e ▸ h

/-! ## The updates of the state -/

theorem State.setPc_onlyWrites (s : State) (a : Word16) : OnlyWrites [.pc] s (s.setPc a) := by
  intro p hp; cases p <;> simp_all [Part.kept]

theorem State.next_onlyWrites (s : State) : OnlyWrites [.pc] s s.next := s.setPc_onlyWrites _

theorem State.skipIf_onlyWrites (s : State) (c : Bool) : OnlyWrites [.pc] s (s.skipIf c) := by
  cases c with
  | true => exact s.setPc_onlyWrites _
  | false => exact s.setPc_onlyWrites _

theorem State.setI_onlyWrites (s : State) (a : Word16) : OnlyWrites [.addressReg] s (s.setI a) := by
  intro p hp; cases p <;> simp_all [Part.kept]

theorem State.setDT_onlyWrites (s : State) (b : Byte) : OnlyWrites [.delayTimer] s (s.setDT b) := by
  intro p hp; cases p <;> simp_all [Part.kept]

theorem State.setST_onlyWrites (s : State) (b : Byte) : OnlyWrites [.soundTimer] s (s.setST b) := by
  intro p hp; cases p <;> simp_all [Part.kept]

theorem State.setMem_onlyWrites (s : State) (m : Memory) : OnlyWrites [.memory] s (s.setMem m) := by
  intro p hp; cases p <;> simp_all [Part.kept]

theorem State.setDisp_onlyWrites (s : State) (d : Display) : OnlyWrites [.display] s (s.setDisp d) := by
  intro p hp; cases p <;> simp_all [Part.kept]

theorem State.setKey_onlyWrites (s : State) (k : KeyIndex) (b : Bool) :
    OnlyWrites [.keypad] s (s.setKey k b) := by
  intro p hp; cases p <;> simp_all [Part.kept]

theorem State.setWait_onlyWrites (s : State) (x : Reg) : OnlyWrites [.wait] s (s.setWait x) := by
  intro p hp; cases p <;> simp_all [Part.kept]

theorem State.takeDraw_onlyWrites (s : State) : OnlyWrites [.draws] s s.takeDraw := by
  intro p hp; cases p <;> simp_all [Part.kept]

theorem State.setHost_onlyWrites (s : State) (h : HostAgent) : OnlyWrites [.host] s (s.setHost h) := by
  intro p hp; cases p <;> simp_all [Part.kept]

theorem State.setReg_onlyWrites (s : State) (x : Reg) (b : Byte) :
    OnlyWrites [.regs] s (s.setReg x b) := by
  intro p hp; cases p <;> simp_all [Part.kept]

theorem State.setResultThenFlag_onlyWrites (s : State) (x : Reg) (b : Byte) (c : Bool) :
    OnlyWrites [.regs] s (s.setResultThenFlag x b c) := by
  intro p hp; cases p <;> simp_all [Part.kept]

theorem State.setRegsFrom_onlyWrites (s : State) (r : Nat) (bs : List Byte) :
    OnlyWrites [.regs] s (s.setRegsFrom r bs) := by
  intro p hp; cases p <;> simp_all [Part.kept]

theorem State.push_onlyWrites (s : State) (a : Word16) :
    OnlyWrites [.slots, .stackIndex] s (s.push a) := by
  intro p hp; cases p <;> simp_all [Part.kept]

theorem State.pop_onlyWrites (s : State) : OnlyWrites [.stackIndex] s s.pop := by
  intro p hp; cases p <;> simp_all [Part.kept]

theorem State.issued_onlyWrites (s : State) : OnlyWrites [.host] s s.issued := s.setHost_onlyWrites _

/-! ## The branching meanings, when they answer a next state -/

theorem execRet_next (h : execRet s = .next t) :
    s.sp.val ≠ 0 ∧ t = s.pop.setPc (s.slot s.topSlot + 2) := by
  by_cases h0 : s.sp.val = 0
  · rw [execRet_empty h0] at h
    cases h
  · rw [execRet_nonempty h0] at h
    exact ⟨h0, (Host.Outcome.next.inj h).symm⟩

theorem execCall_next {nnn : Addr12} (h : execCall nnn s = .next t) :
    s.sp.val ≠ 16 ∧ t = (s.push s.pc).setPc (zext16 nnn) := by
  by_cases h16 : s.sp.val = 16
  · rw [execCall_full nnn h16] at h
    cases h
  · rw [execCall_room nnn h16] at h
    exact ⟨h16, (Host.Outcome.next.inj h).symm⟩

theorem execLdVxK_next {x : Reg} (h : execLdVxK x s = .next t) :
    (∃ k : KeyIndex, t = (s.setReg x (keyByte k)).next) ∨ t = s.setWait x := by
  obtain ⟨k, -, -, e⟩ | ⟨-, e⟩ := execLdVxK_cases x s
  · exact .inl ⟨k, Host.Outcome.next.inj (h.symm.trans e)⟩
  · exact .inr (Host.Outcome.next.inj (h.symm.trans e))

theorem poll_next (h : poll s = .next t) :
    (∃ k : KeyIndex, t = ((s.setReg s.waitReg (keyByte k)).clearWait).next) ∨ t = s := by
  obtain ⟨k, -, -, e⟩ | ⟨-, e⟩ := poll_cases s
  · exact .inl ⟨k, Host.Outcome.next.inj (h.symm.trans e)⟩
  · exact .inr (Host.Outcome.next.inj (h.symm.trans e))

end Sys2Proof.Machine

/-! ## The instructions -/

namespace Sys2Proof

/-- The pieces of state an instruction may write (40 to 48), in the order in which it writes them. -/
def Instr.writes : Instr → List Machine.Part
  | .cls => [.display, .pc]
  | .ret => [.stackIndex, .pc]
  | .call _ => [.slots, .stackIndex, .pc]
  | .sys _ | .nop _ | .jp _ | .jpV0 _ | .seImm _ _ | .sneImm _ _ | .seReg _ _ | .sneReg _ _
  | .skp _ | .sknp _ => [.pc]
  | .ldImm _ _ | .addImm _ _ | .ldReg _ _ | .orReg _ _ | .andReg _ _ | .xorReg _ _ | .addReg _ _
  | .subReg _ _ | .shrReg _ _ | .subnReg _ _ | .shlReg _ _ | .ldVxDT _ | .loadRegs _ => [.regs, .pc]
  | .ldI _ | .addIVx _ | .ldFVx _ => [.addressReg, .pc]
  | .rnd _ _ => [.regs, .pc, .draws]
  | .drw _ _ _ => [.display, .regs, .pc]
  | .ldVxK _ => [.regs, .pc, .wait]
  | .ldDTVx _ => [.delayTimer, .pc]
  | .ldSTVx _ => [.soundTimer, .pc]
  | .ldBVx _ | .storeRegs _ => [.memory, .pc]

end Sys2Proof

namespace Sys2Proof.Machine

variable {s t : State}

/-- An instruction that answers a next state has written only the pieces of state in its list. -/
theorem exec_onlyWrites {i : Instr} (h : exec i s = .next t) : OnlyWrites i.writes s t := by
  have assign (x : Reg) (b : Byte) : OnlyWrites [.regs, .pc] s (s.setReg x b).next :=
    (s.setReg_onlyWrites x b).trans (State.next_onlyWrites _)
  have flagged (x : Reg) (b : Byte) (c : Bool) :
      OnlyWrites [.regs, .pc] s (s.setResultThenFlag x b c).next :=
    (s.setResultThenFlag_onlyWrites x b c).trans (State.next_onlyWrites _)
  have address (a : Word16) : OnlyWrites [.addressReg, .pc] s (s.setI a).next :=
    (s.setI_onlyWrites a).trans (State.next_onlyWrites _)
  have store (m : Memory) : OnlyWrites [.memory, .pc] s (s.setMem m).next :=
    (s.setMem_onlyWrites m).trans (State.next_onlyWrites _)
  cases i with
  | cls => exact ((s.setDisp_onlyWrites _).trans (State.next_onlyWrites _)).of_next h
  | ret =>
    obtain ⟨-, rfl⟩ := execRet_next h
    exact s.pop_onlyWrites.trans (State.setPc_onlyWrites _ _)
  | call nnn =>
    obtain ⟨-, rfl⟩ := execCall_next h
    exact (s.push_onlyWrites _).trans (State.setPc_onlyWrites _ _)
  | sys | nop => exact s.next_onlyWrites.of_next h
  | jp | jpV0 => exact (s.setPc_onlyWrites _).of_next h
  | seImm | sneImm | seReg | sneReg | skp | sknp => exact (s.skipIf_onlyWrites _).of_next h
  | ldImm | addImm | ldReg | orReg | andReg | xorReg | ldVxDT => exact (assign _ _).of_next h
  | addReg | subReg | shrReg | subnReg | shlReg => exact (flagged _ _ _).of_next h
  | ldI | addIVx | ldFVx => exact (address _).of_next h
  | rnd => exact ((assign _ _).trans (State.takeDraw_onlyWrites _)).of_next h
  | drw =>
    obtain ⟨-, cv, rfl⟩ := execDrw_next h
    exact ((s.setDisp_onlyWrites _).trans (State.setReg_onlyWrites _ _ _)).trans
      (State.next_onlyWrites _)
  | ldVxK x =>
    obtain ⟨k, rfl⟩ | rfl := execLdVxK_next h
    · exact (assign _ _).mono (by simp [Instr.writes])
    · exact (s.setWait_onlyWrites x).mono (by simp [Instr.writes])
  | ldDTVx => exact ((s.setDT_onlyWrites _).trans (State.next_onlyWrites _)).of_next h
  | ldSTVx => exact ((s.setST_onlyWrites _).trans (State.next_onlyWrites _)).of_next h
  | ldBVx | storeRegs =>
    obtain ⟨-, rfl⟩ := storeAtI_next h
    exact store _
  | loadRegs =>
    obtain ⟨-, rfl⟩ := execLoadRegs_next h
    exact (s.setRegsFrom_onlyWrites _ _).trans (State.next_onlyWrites _)

/-! ## Which instructions have a piece of state in their list -/

theorem display_mem_writes {i : Instr} :
    .display ∈ i.writes ↔ i = .cls ∨ ∃ x y n, i = .drw x y n := by
  cases i <;> simp [Instr.writes]

theorem memory_mem_writes {i : Instr} :
    .memory ∈ i.writes ↔ ∃ x, i = .ldBVx x ∨ i = .storeRegs x := by
  cases i <;> simp [Instr.writes]

theorem slots_mem_writes {i : Instr} : .slots ∈ i.writes ↔ ∃ nnn, i = .call nnn := by
  cases i <;> simp [Instr.writes]

theorem stackIndex_mem_writes {i : Instr} :
    .stackIndex ∈ i.writes ↔ i = .ret ∨ ∃ nnn, i = .call nnn := by
  cases i <;> simp [Instr.writes]

theorem addressReg_mem_writes {i : Instr} :
    .addressReg ∈ i.writes ↔ ∃ x nnn, i = .ldI nnn ∨ i = .addIVx x ∨ i = .ldFVx x := by
  cases i <;> simp [Instr.writes]

theorem delayTimer_mem_writes {i : Instr} : .delayTimer ∈ i.writes ↔ ∃ x, i = .ldDTVx x := by
  cases i <;> simp [Instr.writes]

theorem soundTimer_mem_writes {i : Instr} : .soundTimer ∈ i.writes ↔ ∃ x, i = .ldSTVx x := by
  cases i <;> simp [Instr.writes]

theorem wait_mem_writes {i : Instr} : .wait ∈ i.writes ↔ ∃ x, i = .ldVxK x := by
  cases i <;> simp [Instr.writes]

theorem draws_mem_writes {i : Instr} : .draws ∈ i.writes ↔ ∃ x nn, i = .rnd x nn := by
  cases i <;> simp [Instr.writes]

theorem keypad_not_mem_writes (i : Instr) : .keypad ∉ i.writes := by
  cases i <;> simp [Instr.writes]

theorem host_not_mem_writes (i : Instr) : .host ∉ i.writes := by
  cases i <;> simp [Instr.writes]

/-- Settles O39: a piece of state that an instruction changes is in the instruction's list. -/
theorem onlyTheNamedInstructionsWrite : Obligations.OnlyTheNamedInstructionsWrite := by
  intro i s t h
  have frame := exec_onlyWrites h
  exact ⟨fun hp => display_mem_writes.mp (frame.mem_of_not_same hp),
    fun hp => memory_mem_writes.mp (frame.mem_of_not_same hp),
    fun hp => slots_mem_writes.mp (frame.mem_of_not_same hp),
    fun hp => stackIndex_mem_writes.mp (frame.mem_of_not_same hp),
    fun hp => addressReg_mem_writes.mp (frame.mem_of_not_same hp),
    fun hp => delayTimer_mem_writes.mp (frame.mem_of_not_same hp),
    fun hp => soundTimer_mem_writes.mp (frame.mem_of_not_same hp),
    fun hp => wait_mem_writes.mp (frame.mem_of_not_same hp),
    fun hp => draws_mem_writes.mp (frame.mem_of_not_same hp),
    (frame .keypad (keypad_not_mem_writes i)).same, (frame .host (host_not_mem_writes i)).same⟩

end Sys2Proof.Machine
end

section
/-!
The invariant: RESET establishes it and every event keeps it. An instruction can break one of its clauses
only where it writes memory, `pc`, a slot or the wait state, and for each of those it is said once what the
instruction leaves there.
-/

namespace Sys2Proof.Machine

variable {s t : State}

/-! ## Where an instruction takes `pc` -/

/-- The values that an instruction run in `s` may leave in `pc` (10_state.md R17). -/
inductive PcMove (s : State) : Word16 → Prop where
  | stay : PcMove s s.pc
  | next : PcMove s (s.pc + 2)
  | skip : PcMove s (s.pc + 4)
  | ret (k : Fin 16) : PcMove s (s.slot k + 2)
  | jump (nnn : Addr12) : PcMove s (zext16 nnn)
  | offset (nnn : Addr12) (v : Byte) : PcMove s (offsetTarget nnn v)

theorem PcMove.skipIf (s : State) (c : Bool) : PcMove s (s.skipIf c).pc := by
  cases c with
  | true => exact .skip
  | false => exact .next

theorem exec_pcMove {i : Instr} (h : exec i s = .next t) : PcMove s t.pc := by
  cases i with
  | ret =>
    obtain ⟨-, rfl⟩ := execRet_next h
    exact .ret _
  | call nnn =>
    obtain ⟨-, rfl⟩ := execCall_next h
    exact .jump nnn
  | jp nnn =>
    cases h
    exact .jump nnn
  | jpV0 nnn =>
    cases h
    exact .offset nnn _
  | seImm | sneImm | seReg | sneReg | skp | sknp =>
    cases h
    exact .skipIf s _
  | drw =>
    obtain ⟨-, cv, rfl⟩ := execDrw_next h
    exact .next
  | ldVxK x =>
    obtain ⟨k, rfl⟩ | rfl := execLdVxK_next h
    · exact .next
    · exact .stay
  | ldBVx | storeRegs =>
    obtain ⟨-, rfl⟩ := storeAtI_next h
    exact .next
  | loadRegs =>
    obtain ⟨-, rfl⟩ := execLoadRegs_next h
    rw [State.next_pc, State.setRegsFrom_pc]
    exact .next
  | _ =>
    cases h
    exact .next

/-- From a fetch in bounds no value of `pc` wraps (10_state.md R18). -/
theorem PcMove.inRange {a : Word16} (h : PcMove s a) (hpc : s.pc.toNat + 1 < 4096)
    (hslots : s.slotsInRange) : a.toNat ≤ 4350 := by
  cases h with
  | stay => omega
  | next => bv_omega
  | skip => bv_omega
  | ret k =>
    have := hslots k
    bv_omega
  | jump nnn =>
    have := nnn.isLt
    rw [zext16_toNat]
    omega
  | offset nnn v =>
    have := nnn.isLt
    have := v.isLt
    rw [offsetTarget_toNat]
    omega

/-! ## Memory and slots -/

theorem storeAtI_mem_wf {bytes : List Byte} (hm : s.mem.wf = true) (h : storeAtI bytes s = .next t) :
    t.mem.wf = true := by
  obtain ⟨hb, rfl⟩ := storeAtI_next h
  exact Memory.wf_writeBytes bytes hm hb

theorem exec_mem_wf {i : Instr} (hm : s.mem.wf = true) (h : exec i s = .next t) : t.mem.wf = true := by
  by_cases hw : Part.memory ∈ i.writes
  · obtain ⟨x, rfl | rfl⟩ := memory_mem_writes.mp hw
    · exact storeAtI_mem_wf hm h
    · exact storeAtI_mem_wf hm h
  · rwa [show t.mem = s.mem from exec_onlyWrites h .memory hw]

/-- A slot holds after an instruction what it held before, or the address of the CALL just executed. -/
theorem exec_slot {i : Instr} (h : exec i s = .next t) (k : Fin 16) :
    t.slot k = s.slot k ∨ t.slot k = s.pc := by
  by_cases hw : Part.slots ∈ i.writes
  · obtain ⟨nnn, rfl⟩ := slots_mem_writes.mp hw
    obtain ⟨hsp, rfl⟩ := execCall_next h
    rw [State.setPc_slot, State.push_slot _ _ (by omega)]
    split
    · exact .inr rfl
    · exact .inl rfl
  · exact .inl ((exec_onlyWrites h .slots hw).same k)

/-! ## The wait state -/

/-- An instruction that leaves a machine suspended which was not is an FX0A, and nothing but the wait state
has changed (46_keypad.md R114). -/
theorem exec_suspends {i : Instr} (hs : s.waitKey = false) (h : exec i s = .next t)
    (ht : t.waitKey = true) : ∃ x, i = .ldVxK x ∧ t = s.setWait x := by
  by_cases hw : Part.wait ∈ i.writes
  · obtain ⟨x, rfl⟩ := wait_mem_writes.mp hw
    obtain ⟨k, rfl⟩ | rfl := execLdVxK_next h
    · simp [hs] at ht
    · exact ⟨x, rfl, rfl⟩
  · have hk : t.waitKey = s.waitKey := (exec_onlyWrites h .wait hw).1
    simp [hk, hs] at ht

/-! ## The invariant along a step -/

theorem State.waitIsAtFX0A_of_not_waiting (h : s.waitKey = false) : s.waitIsAtFX0A :=
  fun hw => absurd hw (by simp [h])

/-- The invariant speaks only of memory, `pc`, the slots and the wait state, and of whether a STEP has been
issued. -/
theorem State.Inv.of_kept (hs : s.Inv) {l : List Part} (h : OnlyWrites l s t)
    (hl : ∀ p ∈ [Part.memory, .pc, .slots, .wait], p ∉ l)
    (hstarted : s.host.started = true → t.host.started = true) : t.Inv := by
  have hmem : t.mem = s.mem := h .memory (hl _ (by simp))
  have hpc : t.pc = s.pc := h .pc (hl _ (by simp))
  have hslots : Part.slots.same s t := (h .slots (hl _ (by simp))).same
  obtain ⟨hkey, hreg⟩ : t.waitKey = s.waitKey ∧ t.waitReg = s.waitReg :=
    h .wait (hl _ (by simp))
  refine ⟨hmem ▸ hs.memory, ?_, fun k => hslots k ▸ hs.slots k, fun hw => ?_⟩
  · rw [State.pcInRange, hpc]
    exact hs.pc
  · obtain ⟨hb, hst, hi⟩ := hs.wait (hkey ▸ hw)
    refine ⟨hpc ▸ hb, hstarted hst, ?_⟩
    rw [State.nextInstr, hmem, hpc, hreg]
    exact hi

theorem State.Inv.issued (hs : s.Inv) : s.issued.Inv :=
  hs.of_kept s.issued_onlyWrites (by simp) fun h => by simp [State.issued, HostAgent.issue, h]

/-- The instruction at `pc` keeps the invariant. -/
theorem State.Inv.exec (hs : s.Inv) (hw : s.waitKey = false) (hpc : s.pc.toNat + 1 < 4096)
    (hstarted : s.host.started = true) (h : exec s.nextInstr s = .next t) : t.Inv where
  memory := exec_mem_wf hs.memory h
  pc := (exec_pcMove h).inRange hpc hs.slots
  slots k := by
    obtain e | e := exec_slot h k
    · exact e ▸ hs.slots k
    · exact e ▸ hpc
  wait ht := by
    obtain ⟨x, hi, rfl⟩ := exec_suspends hw h ht
    exact ⟨hpc, hstarted, hi⟩

/-- A poll keeps the invariant: it ends the wait and goes past the FX0A, or changes nothing. -/
theorem State.Inv.poll (hs : s.Inv) (hw : s.waitKey = true) (h : poll s = .next t) : t.Inv := by
  obtain ⟨hpc, -, -⟩ := hs.wait hw
  obtain ⟨k, rfl⟩ | rfl := poll_next h
  · exact ⟨hs.memory, PcMove.next.inRange hpc hs.slots, hs.slots, State.waitIsAtFX0A_of_not_waiting rfl⟩
  · exact hs

theorem State.Inv.stepEvent (hs : s.Inv) (hstarted : s.host.started = true)
    (h : stepEvent s = .next t) : t.Inv := by
  obtain ⟨hw, h⟩ | ⟨hw, hpc, h⟩ := stepEvent_next h
  · exact hs.poll hw h
  · exact hs.exec hw hpc hstarted h

theorem tickEvent_onlyWrites (s : State) : OnlyWrites [.delayTimer, .soundTimer] s (tickEvent s) :=
  (s.setDT_onlyWrites _).trans (State.setST_onlyWrites _ _)

theorem keyEvent_onlyWrites (k : KeyIndex) (b : Bool) (s : State) :
    OnlyWrites [.keypad] s (keyEvent k b s) := s.setKey_onlyWrites k b

theorem resetEvent_onlyWrites (s : State) : OnlyWrites [.draws, .host] State.reset (resetEvent s) := by
  intro p hp; cases p <;> simp_all [Part.kept, resetEvent]

/-- A LOAD keeps the invariant: it is made before the first STEP, so the machine is not suspended. -/
theorem State.Inv.load {a : Nat} (hs : s.Inv) (b : Byte) (h : s.mayLoad a = true) :
    (s.setMem (s.mem.write a b)).Inv := by
  obtain ⟨hst, -, ha⟩ := mayLoad_iff.mp h
  have hw : s.waitKey ≠ true := fun hw => by
    obtain ⟨-, hst', -⟩ := hs.wait hw
    simp [hst'] at hst
  exact ⟨Memory.wf_write b hs.memory ha, hs.pc, hs.slots, fun h' => absurd h' hw⟩

/-- Settles O47: every clause is a fact about the fixed reset state, which lists no memory. -/
theorem invariantHoldsAtReset : Obligations.InvariantHoldsAtReset where
  memory := Memory.wf_nil
  pc := by unfold State.pcInRange; decide
  slots := by unfold State.slotsInRange; decide
  wait := State.waitIsAtFX0A_of_not_waiting rfl

/-- Settles O48, by the kind of event: only a STEP and a LOAD write what the invariant speaks of, and RESET
starts again from the reset state. -/
theorem invariantKeptByEveryEvent : Obligations.InvariantKeptByEveryEvent := by
  intro s t hs h
  have hi := hs.issued
  obtain ⟨he, h⟩ | ⟨-, rfl⟩ | ⟨k, b, -, rfl⟩ | ⟨a, b, -, hload, rfl⟩ | ⟨-, rfl⟩ | ⟨-, rfl⟩ := step_next h
  · exact hi.stepEvent (State.issued_started he) h
  · exact hi.of_kept (tickEvent_onlyWrites _) (by simp) id
  · exact hi.of_kept (keyEvent_onlyWrites k b _) (by simp) id
  · exact hi.load b hload
  · exact hi
  · exact invariantHoldsAtReset.of_kept (resetEvent_onlyWrites _) (by simp) (by simp [State.reset])

end Sys2Proof.Machine
end

section
/-!
What may change VF (10_state.md R13): the instructions that write registers are flag writers, or write the
one register they name, or load a run of registers from `V[0]` up.
-/

namespace Sys2Proof.Machine

variable {s t : State}

theorem setReg_next_regsAre (x : Reg) (b : Byte) (s : State) : RegsAre x b s (s.setReg x b).next :=
  s.setReg_reg x b

/-- A register that differs where only one is written is that one. -/
theorem RegsAre.eq_of_ne {x r : Reg} {b : Byte} (h : RegsAre x b s t) (hne : t.reg r ≠ s.reg r) :
    x = r := by
  by_contra hx
  exact hne (by rw [h r, if_neg (Ne.symm hx)])

/-- A meaning that writes `V[x]` and then advances `pc` changes no other register. -/
theorem eq_of_setReg_next {x r : Reg} {b : Byte} (h : (.next (s.setReg x b).next : Result) = .next t)
    (hne : t.reg r ≠ s.reg r) : x = r :=
  RegsAre.eq_of_ne (Host.Outcome.next.inj h ▸ setReg_next_regsAre x b s) hne

/-- A load of registers up to `V[x]` changes no register above it. -/
theorem le_of_execLoadRegs {x r : Reg} (h : execLoadRegs x s = .next t) (hne : t.reg r ≠ s.reg r) :
    r ≤ x := by
  obtain ⟨-, rfl⟩ := execLoadRegs_next h
  by_contra hx
  have hlt : x.val < r.val := not_le.mp hx
  apply hne
  rw [State.next_reg, State.setRegsFrom_reg _ _ _ (by simp [regCount]), dif_neg]
  simp only [Memory.readBytes_length, regCount, not_and]
  omega

/-- Settles O40, by the instructions that have the registers in their list of writes. -/
theorem onlyFlagWritersAndDestinationsChangeVF :
    Obligations.OnlyFlagWritersAndDestinationsChangeVF := by
  intro i s t h hne
  have hregs : .regs ∈ i.writes := (exec_onlyWrites h).mem_of_not_same fun hsame => hne (hsame VF)
  cases i with
  | addReg x y => exact .inl ⟨x, y, by simp⟩
  | subReg x y => exact .inl ⟨x, y, by simp⟩
  | shrReg x y => exact .inl ⟨x, y, by simp⟩
  | subnReg x y => exact .inl ⟨x, y, by simp⟩
  | shlReg x y => exact .inl ⟨x, y, by simp⟩
  | drw x y n => exact .inr (.inl ⟨x, y, n, rfl⟩)
  | ldImm x nn | addImm x nn =>
    obtain rfl := eq_of_setReg_next h hne
    exact .inr (.inr (.inl ⟨nn, by simp⟩))
  | rnd x nn =>
    have written : RegsAre x (Config.freeRandomByte s.draws &&& nn) s t := by
      cases h
      exact setReg_next_regsAre x _ s
    obtain rfl := written.eq_of_ne hne
    exact .inr (.inr (.inl ⟨nn, by simp⟩))
  | ldReg x y | orReg x y | andReg x y | xorReg x y =>
    obtain rfl := eq_of_setReg_next h hne
    exact .inr (.inr (.inr (.inl ⟨y, by simp⟩)))
  | ldVxDT x =>
    obtain rfl := eq_of_setReg_next h hne
    simp
  | ldVxK x =>
    obtain ⟨k, rfl⟩ | rfl := execLdVxK_next h
    · obtain rfl := (setReg_next_regsAre x _ s).eq_of_ne hne
      simp
    · exact absurd rfl hne
  | loadRegs x =>
    obtain rfl : x = VF := le_antisymm (Fin.le_last x) (le_of_execLoadRegs h hne)
    simp
  | _ => simp [Instr.writes] at hregs

end Sys2Proof.Machine
end

section
/-!
The reset contents of memory, the glyphs a program finds there, and the two events that touch no
instruction: a read of the outputs, and RESET.
-/

namespace Sys2Proof.Machine

variable {s : State}

/-! ## The font table -/

theorem config_valid : config.valid = true := by decide

/-- Memory is 0 after RESET outside the font table (10_state.md R35). -/
theorem resetByte_outside_font {a : Nat} (h : a < 0x50 ∨ 0xA0 ≤ a) : resetByte a = 0 := by
  have base : config.fontBase = 0x50 := rfl
  have length : config.fontData.length = 80 := rfl
  rw [resetByte, resetByteOf]
  split
  · rw [List.getElem?_eq_none (by omega), Option.getD_none]
  · rfl

/-- Settles O21: the address of a digit's glyph does not wrap and lies in the font table. -/
theorem glyphAddressLeadsToTheGlyph : Obligations.GlyphAddressLeadsToTheGlyph := by
  intro x s k hfont hdigit hk
  refine ⟨_, rfl, (exec_onlyWrites (i := .ldFVx x) rfl).onlyChanges, rfl, ?_⟩
  have hI : (glyphAddress config (s.reg x)).toNat = 0x50 + 5 * (s.reg x).toNat :=
    glyphAddress_toNat config_valid _
  rw [State.next_mem, State.setI_mem, State.next_I, State.setI_I, hI, hfont _ (by omega) (by omega),
    Nat.add_assoc]
  exact fontData_getElem? (by omega)

/-! ## Reads -/

theorem State.soundOn_iff : s.soundOn = true ↔ s.ST ≠ 0 := by
  rw [State.soundOn, decide_eq_true_iff]
  bv_omega

/-- Settles O45: a read only moves the host's record on. -/
theorem readsChangeNothing : Obligations.ReadsChangeNothing := fun s h =>
  ⟨s.issued, step_of_read h, s.issued_onlyWrites.onlyChanges, rfl, rfl, State.soundOn_iff⟩

/-! ## RESET -/

@[simp] theorem State.reset_reg (r : Reg) : State.reset.reg r = 0 := by
  simp [State.reg, State.reset]

@[simp] theorem State.reset_slot (k : Fin 16) : State.reset.slot k = 0 := by
  simp [State.slot, State.reset]

@[simp] theorem State.reset_keyDown (k : KeyIndex) : State.reset.keyDown k = false := by
  simp [State.keyDown, State.reset]

@[simp] theorem State.reset_pixel (row : Fin 32) (col : Fin 64) : State.reset.pixel row col = false :=
  Display.pixel_blank row col

/-- Settles O46: all of the state but `draws` and the host's record is that of `State.reset`. -/
theorem resetSetsEveryPieceOfState : Obligations.ResetSetsEveryPieceOfState := by
  intro s h
  exact ⟨resetEvent s.issued, step_of_reset h, State.reset_reg, rfl, rfl, State.reset_slot, rfl, rfl, rfl,
    State.reset_pixel, State.reset_keyDown, rfl, rfl, fun _ => resetByte_outside_font,
    fun _ => fontData_getElem?, rfl, rfl⟩

end Sys2Proof.Machine
end

section
/-!
Memory as data: an entry of the canonical form is listed where the memory reads other than after RESET, so
reading alike fixes the list (notes/assumptions/5.md).
-/

namespace Sys2Proof.Machine

theorem Memory.wfFrom_cons {lo a : Nat} {b : Byte} {m : Memory} :
    Memory.wfFrom lo ((a, b) :: m) = true ↔
      lo ≤ a ∧ a < 4096 ∧ b ≠ resetByte a ∧ Memory.wfFrom (a + 1) m = true := by
  simp [Memory.wfFrom, and_assoc]

@[simp] theorem Memory.read_cons_self (a : Nat) (b : Byte) (m : Memory) :
    Memory.read ((a, b) :: m) a = b := if_pos rfl

theorem Memory.read_cons_of_ne {a c : Nat} (h : c ≠ a) (b : Byte) (m : Memory) :
    Memory.read ((a, b) :: m) c = m.read c := if_neg h

/-- A canonical memory that lists nothing reads unlike one that lists something. -/
theorem Memory.not_reads_as_nil {lo a : Nat} {b : Byte} {m : Memory}
    (hm : Memory.wfFrom lo ((a, b) :: m) = true) : Memory.read [] a ≠ Memory.read ((a, b) :: m) a := by
  obtain ⟨-, -, hb, -⟩ := Memory.wfFrom_cons.mp hm
  rw [Memory.read_cons_self]
  exact hb.symm

/-- What the first entry of a canonical memory lists, another one that reads alike does not list later. -/
theorem Memory.head_le_of_reads_alike {lo lo' a a' : Nat} {b b' : Byte} {m m' : Memory}
    (hm : Memory.wfFrom lo ((a, b) :: m) = true) (hm' : Memory.wfFrom lo' ((a', b') :: m') = true)
    (h : Memory.read ((a, b) :: m) a = Memory.read ((a', b') :: m') a) : a' ≤ a := by
  obtain ⟨-, -, hb, -⟩ := Memory.wfFrom_cons.mp hm
  obtain ⟨-, hrest'⟩ := Memory.wfFrom_cons.mp hm'
  have fromHead : Memory.wfFrom a' ((a', b') :: m') = true := Memory.wfFrom_cons.mpr ⟨le_rfl, hrest'⟩
  by_contra hlt
  rw [Memory.read_cons_self, Memory.read_below fromHead (by omega)] at h
  exact hb h

theorem Memory.eq_of_reads_alike {lo : Nat} {m m' : Memory} (hm : Memory.wfFrom lo m = true)
    (hm' : Memory.wfFrom lo m' = true) (h : ∀ a, m.read a = m'.read a) : m = m' := by
  induction m generalizing lo m' with
  | nil =>
    cases m' with
    | nil => rfl
    | cons c' m' => exact absurd (h _) (Memory.not_reads_as_nil hm')
  | cons c m ih =>
    cases m' with
    | nil => exact absurd (h _).symm (Memory.not_reads_as_nil hm)
    | cons c' m' =>
      obtain ⟨a, b⟩ := c
      obtain ⟨a', b'⟩ := c'
      obtain rfl : a = a' := le_antisymm (Memory.head_le_of_reads_alike hm' hm (h a').symm)
        (Memory.head_le_of_reads_alike hm hm' (h a))
      obtain rfl : b = b' := by simpa using h a
      obtain ⟨-, -, -, hrest⟩ := Memory.wfFrom_cons.mp hm
      obtain ⟨-, -, -, hrest'⟩ := Memory.wfFrom_cons.mp hm'
      have restAlike (c : Nat) : Memory.read m c = Memory.read m' c := by
        by_cases hc : c = a
        · rw [hc, Memory.read_below hrest (by omega), Memory.read_below hrest' (by omega)]
        · rw [← Memory.read_cons_of_ne hc b m, h c, Memory.read_cons_of_ne hc]
      rw [ih hrest hrest' restAlike]

/-- Settles O49, by induction on the first memory: the two list the same first entry. -/
theorem canonicalMemoriesAreEqualWhenTheyReadAlike :
    Obligations.CanonicalMemoriesAreEqualWhenTheyReadAlike :=
  fun _ _ hm hm' h => Memory.eq_of_reads_alike hm hm' h

end Sys2Proof.Machine
end

section
/-!
LOAD (20_memory.md R52): inside the contract it is one write, outside it is refused.
-/

namespace Sys2Proof.Machine

variable {s : State} {a : Nat}

theorem loadEvent_allowed (b : Byte) (h : s.mayLoad a = true) :
    loadEvent a b s = .next (s.setMem (s.mem.write a b)) := by
  rw [loadEvent, if_pos h]

theorem loadEvent_refused (b : Byte) (h : ¬ s.mayLoad a = true) :
    loadEvent a b s = .refused (.loadOutsideContract a) := by
  rw [loadEvent, if_neg h]

/-- The contract of LOAD at the time the host issues it. -/
theorem issued_mayLoad_iff {b : Byte} (h : s.nextEvent = .load a b) :
    s.issued.mayLoad a = true ↔ s.host.started = false ∧ 0x200 ≤ a ∧ a < 4096 := by
  rw [mayLoad_iff, State.issued_started_other (by simp [h]), show config.programStart = 0x200 from rfl]

/-- Settles O44, by the two branches of the contract. -/
theorem loadWritesOneProgramByteBeforeSteps : Obligations.LoadWritesOneProgramByteBeforeSteps := by
  intro a b s he hm
  rw [step_of_load he]
  constructor
  · intro hst hlo hhi
    refine ⟨_, loadEvent_allowed b ((issued_mayLoad_iff he).mpr ⟨hst, hlo, hhi⟩), ?_, ?_⟩
    · exact ((s.issued_onlyWrites.trans (State.setMem_onlyWrites _ _)).mono (by simp)).onlyChanges
    · exact Memory.read_write a b hm
  · intro hout
    refine loadEvent_refused b fun hmay => ?_
    obtain ⟨hst, hlo, hhi⟩ := (issued_mayLoad_iff he).mp hmay
    rcases hout with hst' | hlo' | hhi'
    · simp [hst] at hst'
    · omega
    · omega

end Sys2Proof.Machine
end

section
/-!
Transfers of registers in bounds, and the STEP that fetches what was stored: a store is seen by a later
load and by the very next fetch (20_memory.md R54, R57).
-/

namespace Sys2Proof.Machine

variable {s t : State} {x r : Reg}

/-! ## Stores and loads of registers -/

theorem exec_storeRegs_in (h : s.base + x.val < 4096) :
    exec (.storeRegs x) s =
      .next (s.setMem (s.mem.writeBytes s.base (s.regsFrom 0 (regCount x)))).next :=
  storeAtI_in (by rw [State.regsFrom_length, regCount]; omega)

theorem exec_loadRegs_in (h : s.base + x.val < 4096) :
    exec (.loadRegs x) s = .next (s.setRegsFrom 0 (s.mem.readBytes s.base (regCount x))).next :=
  withBounds_in (.inr (by rw [regCount]; omega)) _

/-- After a store of registers each stored one stands at its address (48_index_memory.md R123). -/
theorem read_of_exec_storeRegs (hm : s.mem.wf = true) (h : exec (.storeRegs x) s = .next t)
    (hr : r ≤ x) : t.mem.read (s.base + r.val) = s.reg r := by
  obtain ⟨hb, rfl⟩ := storeAtI_next h
  have hr' : r.val ≤ x.val := hr
  have hcount : s.base ≤ s.base + r.val ∧
      s.base + r.val - s.base < (s.regsFrom 0 (regCount x)).length := by
    rw [State.regsFrom_length, regCount]
    omega
  rw [State.next_mem, State.setMem_mem, Memory.read_writeBytes _ hm hb, dif_pos hcount,
    State.regsFrom_getElem]
  congr 1
  rw [Fin.ext_iff, index16_val]
  omega

theorem pc_of_exec_storeRegs (h : exec (.storeRegs x) s = .next t) : t.pc = s.pc + 2 := by
  obtain ⟨-, rfl⟩ := storeAtI_next h
  rfl

theorem waitKey_of_exec_storeRegs (h : exec (.storeRegs x) s = .next t) : t.waitKey = s.waitKey := by
  obtain ⟨-, rfl⟩ := storeAtI_next h
  rfl

/-- After a load of registers each loaded one holds the byte at its address (48_index_memory.md R124). -/
theorem reg_of_exec_loadRegs (h : exec (.loadRegs x) s = .next t) (hr : r ≤ x) :
    t.reg r = s.mem.read (s.base + r.val) := by
  obtain ⟨-, rfl⟩ := execLoadRegs_next h
  have hr' : r.val ≤ x.val := hr
  have hcount : 0 ≤ r.val ∧ r.val - 0 < (s.mem.readBytes s.base (regCount x)).length := by
    rw [Memory.readBytes_length, regCount]
    omega
  rw [State.next_reg, State.setRegsFrom_reg _ _ _ (by simp [regCount]), dif_pos hcount,
    Memory.readBytes_getElem, Nat.sub_zero]

/-- Settles O27: the load reads each register's byte where the store put it. -/
theorem storeThenLoadRestoresRegisters : Obligations.StoreThenLoadRestoresRegisters := by
  intro x s hm hb
  have stored := exec_storeRegs_in hb
  refine ⟨_, stored, fun u hI hmem => ?_⟩
  have hbase : u.base = s.base := congrArg BitVec.toNat hI
  have loaded := exec_loadRegs_in (hbase ▸ hb)
  refine ⟨_, loaded, fun r hr => ?_⟩
  rw [reg_of_exec_loadRegs loaded hr, hbase, hmem]
  exact read_of_exec_storeRegs hm stored hr

/-! ## The STEP of a machine that is not suspended -/

/-- A STEP that fetches in bounds runs the instruction at `pc` (30_encoding.md R61). -/
theorem step_eq_exec (he : s.nextEvent = .step) (hw : s.waitKey = false)
    (hpc : s.pc.toNat + 1 < 4096) : step s = exec s.nextInstr s.issued := by
  rw [step_of_step he, stepEvent_exec (s := s.issued) hw hpc]
  rfl

/-- Settles O28: the store leaves `pc` at `I`, where the next fetch reads the first two registers. -/
theorem storedCodeIsFetchedNext : Obligations.StoredCodeIsFetchedNext := by
  intro x s hm he hw hpc hi hx hI hb
  obtain ⟨t, ht⟩ : ∃ t, exec (.storeRegs x) s.issued = .next t := ⟨_, exec_storeRegs_in hb⟩
  have htpc : t.pc.toNat = s.base := by
    have : t.pc = s.pc + 2 := pc_of_exec_storeRegs (s := s.issued) ht
    bv_omega
  have htw : t.waitKey = false := (waitKey_of_exec_storeRegs ht).trans hw
  have htword : t.mem.wordAt t.pc.toNat = wordOfBytes (s.reg 0) (s.reg 1) := by
    rw [htpc]
    exact congrArg₂ wordOfBytes (read_of_exec_storeRegs (s := s.issued) hm ht (Fin.zero_le x))
      (read_of_exec_storeRegs (s := s.issued) (r := 1) hm ht hx)
  refine ⟨t, by rw [step_eq_exec he hw hpc, hi, ht], htpc, fun het => ?_⟩
  rw [step_eq_exec het htw (by omega), State.nextInstr, htword]

/-! ## The word placed for the next fetch -/

theorem State.canFetch_iff : s.canFetch = true ↔ s.pc.toNat + 1 < 4096 := by
  simp [State.canFetch]

theorem State.fetchPc_inBounds (s : State) : s.fetchPc.toNat + 1 < 4096 := by
  rw [State.fetchPc]
  split
  · exact State.canFetch_iff.mp ‹_›
  · decide

/-- The host's next event is a STEP: whatever its script holds before one is dropped. -/
theorem State.withFetchWord_nextEvent (s : State) (nbits w : Nat) :
    (s.withFetchWord nbits w).nextEvent = .step := by
  change (s.host.script.dropWhile (· != .step)).headD .step = .step
  induction s.host.script with
  | nil => rfl
  | cons e es ih =>
    by_cases he : e = .step
    · subst he
      rfl
    · rw [List.dropWhile_cons_of_pos (by simpa using he)]
      exact ih

/-- The instruction at `pc` is the word placed. -/
theorem State.withFetchWord_nextInstr (hm : s.mem.wf = true) (nbits w : Nat) :
    (s.withFetchWord nbits w).nextInstr = decode (tableWord nbits w) :=
  congrArg decode (Memory.wordAt_writeWord _ hm s.fetchPc_inBounds)

/-- Settles O36: the placed word stands where the next STEP fetches it. -/
theorem fetchWordRunsNext : Obligations.FetchWordRunsNext := by
  intro s nbits w hm
  rw [step_eq_exec (s.withFetchWord_nextEvent nbits w) rfl s.fetchPc_inBounds,
    State.withFetchWord_nextInstr hm]

end Sys2Proof.Machine
end

section
/-!
Encoding and decoding are inverse (30_encoding.md R64 to R71): every word is spelled by the instruction it
decodes to, and every well-formed instruction is the one its word decodes to.
-/

namespace Sys2Proof

/-! ## A word is the word of its fields -/

section
variable {w : Word16} {f o : Nat}

theorem encodeNNN_fields (hf : w.toNat / 4096 = f) : encodeNNN f (fieldNNN w) = w := by
  apply BitVec.eq_of_toNat_eq
  rw [encodeNNN_toNat (by omega), fieldNNN_toNat]
  omega

theorem encodeXNN_fields (hf : w.toNat / 4096 = f) : encodeXNN f (fieldX w) (fieldNN w) = w := by
  apply BitVec.eq_of_toNat_eq
  rw [encodeXNN_toNat (by omega), fieldX_val, fieldNN_toNat]
  omega

theorem encodeXYN_fields (hf : w.toNat / 4096 = f) (ho : (nibble w 0).val = o) :
    encodeXYN f (fieldX w) (fieldY w) o = w := by
  rw [nibble_last] at ho
  apply BitVec.eq_of_toNat_eq
  rw [encodeXYN_toNat (by omega) (by omega), fieldX_val, fieldY_val]
  omega

theorem encodeXOO_fields (ho : o < 256) (hf : w.toNat / 4096 = f) (hnn : fieldNN w = BitVec.ofNat 8 o) :
    encodeXOO f (fieldX w) o = w := by
  rw [fieldNN_eq_iff, BitVec.toNat_ofNat] at hnn
  apply BitVec.eq_of_toNat_eq
  rw [encodeXOO_toNat (by omega) ho, fieldX_val]
  omega

/-- Different words of one family differ in `NNN`. -/
theorem fieldNNN_ne {c : Word16} (hf : w.toNat / 4096 = c.toNat / 4096) (h : w ≠ c) :
    fieldNNN w ≠ fieldNNN c := fun e =>
  h (by rw [← encodeNNN_fields hf, e, encodeNNN_fields rfl])

end

/-! ## Families with a decoder of their own -/

section
variable {w : Word16}

theorem decode_family0 (hf : w.toNat / 4096 = 0) : decode w = decodeFamily0 w := by
  simp [decode, nibble_family, hf]

theorem decode_family5 (hf : w.toNat / 4096 = 5) : decode w = decodeFamily5 w := by
  simp [decode, nibble_family, hf]

theorem decode_family8 (hf : w.toNat / 4096 = 8) : decode w = decodeFamily8 w := by
  simp [decode, nibble_family, hf]

theorem decode_family9 (hf : w.toNat / 4096 = 9) : decode w = decodeFamily9 w := by
  simp [decode, nibble_family, hf]

theorem decode_familyE (hf : w.toNat / 4096 = 14) : decode w = decodeFamilyE w := by
  simp [decode, nibble_family, hf]

theorem decode_familyF (hf : w.toNat / 4096 = 15) : decode w = decodeFamilyF w := by
  simp [decode, nibble_family, hf]

/-! ## The legacy addresses, and the unrecognised words family by family (R70, R71) -/

theorem legacyAddr_iff {nnn : Addr12} : legacyAddr nnn = true ↔ nnn ≠ 0x0E0 ∧ nnn ≠ 0x0EE := by
  simp [legacyAddr]

theorem unrecognised_family5 (hf : w.toNat / 4096 = 5) :
    unrecognised w = true ↔ (nibble w 0).val ≠ 0 := by
  simp [unrecognised, hf, nibble_last]

theorem unrecognised_family8 (hf : w.toNat / 4096 = 8) :
    unrecognised w = true ↔
      (nibble w 0).val ≠ 0x0 ∧ (nibble w 0).val ≠ 0x1 ∧ (nibble w 0).val ≠ 0x2 ∧
      (nibble w 0).val ≠ 0x3 ∧ (nibble w 0).val ≠ 0x4 ∧ (nibble w 0).val ≠ 0x5 ∧
      (nibble w 0).val ≠ 0x6 ∧ (nibble w 0).val ≠ 0x7 ∧ (nibble w 0).val ≠ 0xE := by
  have enumerated :
      unrecognised w = true ↔ w.toNat % 16 ∈ [0x8, 0x9, 0xA, 0xB, 0xC, 0xD, 0xF] := by
    simp [unrecognised, hf]
  rw [enumerated, nibble_last]
  simp only [List.mem_cons, List.not_mem_nil, or_false]
  omega

theorem unrecognised_family9 (hf : w.toNat / 4096 = 9) :
    unrecognised w = true ↔ (nibble w 0).val ≠ 0 := by
  simp [unrecognised, hf, nibble_last]

theorem unrecognised_familyE (hf : w.toNat / 4096 = 14) :
    unrecognised w = true ↔ fieldNN w ≠ 0x9E#8 ∧ fieldNN w ≠ 0xA1#8 := by
  simp [unrecognised, hf, fieldNN_eq_iff]

theorem unrecognised_familyF (hf : w.toNat / 4096 = 15) :
    unrecognised w = true ↔
      fieldNN w ≠ 0x07#8 ∧ fieldNN w ≠ 0x0A#8 ∧ fieldNN w ≠ 0x15#8 ∧ fieldNN w ≠ 0x18#8 ∧
      fieldNN w ≠ 0x1E#8 ∧ fieldNN w ≠ 0x29#8 ∧ fieldNN w ≠ 0x33#8 ∧ fieldNN w ≠ 0x55#8 ∧
      fieldNN w ≠ 0x65#8 := by
  simp [unrecognised, hf, fieldNN_eq_iff]

theorem family_of_unrecognised (h : unrecognised w = true) :
    w.toNat / 4096 = 5 ∨ w.toNat / 4096 = 8 ∨ w.toNat / 4096 = 9 ∨ w.toNat / 4096 = 14 ∨
    w.toNat / 4096 = 15 := by
  simp only [unrecognised, Bool.or_eq_true, Bool.and_eq_true, beq_iff_eq] at h
  tauto

end

/-! ## The decoded instruction spells the word -/

/-- The instruction is well formed and its word is `w`. -/
def Instr.Spells (i : Instr) (w : Word16) : Prop := i.wellFormed = true ∧ encode i = w

section
variable {w : Word16}

theorem decodeFamily0_spells (hf : w.toNat / 4096 = 0) : (decodeFamily0 w).Spells w := by
  unfold decodeFamily0
  split_ifs with hcls hret
  · exact ⟨rfl, hcls.symm⟩
  · exact ⟨rfl, hret.symm⟩
  · exact ⟨legacyAddr_iff.mpr ⟨fieldNNN_ne hf hcls, fieldNNN_ne hf hret⟩, encodeNNN_fields hf⟩

theorem decodeFamily5_spells (hf : w.toNat / 4096 = 5) : (decodeFamily5 w).Spells w := by
  unfold decodeFamily5
  split_ifs with ho
  · exact ⟨rfl, encodeXYN_fields hf ho⟩
  · exact ⟨(unrecognised_family5 hf).mpr ho, rfl⟩

theorem decodeFamily8_spells (hf : w.toNat / 4096 = 8) : (decodeFamily8 w).Spells w := by
  unfold decodeFamily8
  split
  case h_10 => exact ⟨(unrecognised_family8 hf).mpr (by and_intros <;> assumption), rfl⟩
  all_goals exact ⟨rfl, encodeXYN_fields hf ‹_›⟩

theorem decodeFamily9_spells (hf : w.toNat / 4096 = 9) : (decodeFamily9 w).Spells w := by
  unfold decodeFamily9
  split_ifs with ho
  · exact ⟨rfl, encodeXYN_fields hf ho⟩
  · exact ⟨(unrecognised_family9 hf).mpr ho, rfl⟩

theorem decodeFamilyE_spells (hf : w.toNat / 4096 = 14) : (decodeFamilyE w).Spells w := by
  unfold decodeFamilyE
  split_ifs
  case neg => exact ⟨(unrecognised_familyE hf).mpr (by and_intros <;> assumption), rfl⟩
  all_goals exact ⟨rfl, encodeXOO_fields (by decide) hf ‹_›⟩

theorem decodeFamilyF_spells (hf : w.toNat / 4096 = 15) : (decodeFamilyF w).Spells w := by
  unfold decodeFamilyF
  split_ifs
  case neg => exact ⟨(unrecognised_familyF hf).mpr (by and_intros <;> assumption), rfl⟩
  all_goals exact ⟨rfl, encodeXOO_fields (by decide) hf ‹_›⟩

end

/-- By the family, and in a family by the format of the instruction selected. -/
theorem decode_spells (w : Word16) : (decode w).Spells w := by
  rcases decode_cases w with ⟨hf, h⟩ | ⟨hf, h⟩ | ⟨hf, h⟩ | ⟨hf, h⟩ | ⟨hf, h⟩ | ⟨hf, h⟩ | ⟨hf, h⟩ |
    ⟨hf, h⟩ | ⟨hf, h⟩ | ⟨hf, h⟩ | ⟨hf, h⟩ | ⟨hf, h⟩ | ⟨hf, h⟩ | ⟨hf, h⟩ | ⟨hf, h⟩ | ⟨hf, h⟩ <;> rw [h]
  · exact decodeFamily0_spells hf
  · exact ⟨rfl, encodeNNN_fields hf⟩
  · exact ⟨rfl, encodeNNN_fields hf⟩
  · exact ⟨rfl, encodeXNN_fields hf⟩
  · exact ⟨rfl, encodeXNN_fields hf⟩
  · exact decodeFamily5_spells hf
  · exact ⟨rfl, encodeXNN_fields hf⟩
  · exact ⟨rfl, encodeXNN_fields hf⟩
  · exact decodeFamily8_spells hf
  · exact decodeFamily9_spells hf
  · exact ⟨rfl, encodeNNN_fields hf⟩
  · exact ⟨rfl, encodeNNN_fields hf⟩
  · exact ⟨rfl, encodeXNN_fields hf⟩
  · exact ⟨rfl, encodeXYN_fields hf rfl⟩
  · exact decodeFamilyE_spells hf
  · exact decodeFamilyF_spells hf

/-- Settles O52, by the family of the word. -/
theorem encodeOfDecodeIsTheWord : Obligations.EncodeOfDecodeIsTheWord := decode_spells

/-! ## The no-op words -/

/-- In each of the five families with unrecognised words every test of the decoder fails. -/
theorem decode_of_unrecognised {w : Word16} (h : unrecognised w = true) : decode w = .nop w := by
  rcases family_of_unrecognised h with hf | hf | hf | hf | hf
  · rw [unrecognised_family5 hf] at h
    rw [decode_family5 hf, decodeFamily5, if_neg h]
  · rw [unrecognised_family8 hf] at h
    simp [decode_family8 hf, decodeFamily8, h]
  · rw [unrecognised_family9 hf] at h
    rw [decode_family9 hf, decodeFamily9, if_neg h]
  · rw [unrecognised_familyE hf] at h
    simp [decode_familyE hf, decodeFamilyE, h]
  · rw [unrecognised_familyF hf] at h
    simp [decode_familyF hf, decodeFamilyF, h]

theorem decode_legacy {w : Word16} (h : w.toNat < 4096) (hcls : w ≠ 0x00E0) (hret : w ≠ 0x00EE) :
    decode w = .sys (fieldNNN w) := by
  rw [decode_family0 (Nat.div_eq_of_lt h), decodeFamily0, if_neg hcls, if_neg hret]

/-- The word of a well-formed SYS is one of the legacy family. -/
theorem encode_sys_legacy {nnn : Addr12} (h : legacyAddr nnn = true) :
    (encode (.sys nnn)).toNat < 4096 ∧ encode (.sys nnn) ≠ 0x00E0 ∧ encode (.sys nnn) ≠ 0x00EE := by
  obtain ⟨hcls, hret⟩ := legacyAddr_iff.mp h
  have hnnn : fieldNNN (encode (.sys nnn)) = nnn := encodeNNN_fieldNNN (by decide) nnn
  refine ⟨?_, fun e => hcls (hnnn.symm.trans (congrArg fieldNNN e)),
    fun e => hret (hnnn.symm.trans (congrArg fieldNNN e))⟩
  rw [encode, encodeNNN_toNat (by decide)]
  omega

/-- Settles O54: what a word decodes to is well formed and spells it, which for a NOP and a SYS is the
enumeration; the converses are the decoder's own tests. -/
theorem noOpWordsAreExactlyTheEnumeratedOnes : Obligations.NoOpWordsAreExactlyTheEnumeratedOnes := by
  intro w
  obtain ⟨hwf, hword⟩ := decode_spells w
  refine ⟨⟨fun h => ?_, decode_of_unrecognised⟩, ?_, fun ⟨h, hcls, hret⟩ => ⟨_, decode_legacy h hcls hret⟩⟩
  · rwa [h] at hwf
  · rintro ⟨nnn, h⟩
    rw [h] at hwf hword
    exact hword ▸ encode_sys_legacy hwf

/-! ## Decoding an encoded instruction -/

/-- Settles O51, format by format: the decoder reads the family and the operands that the encoder wrote. -/
theorem decodeOfEncodeIsTheInstruction : Obligations.DecodeOfEncodeIsTheInstruction := by
  intro i h
  cases i with
  | cls | ret => rfl
  | sys nnn =>
    obtain ⟨hlt, hcls, hret⟩ := encode_sys_legacy h
    rw [decode_legacy hlt hcls hret]
    exact congrArg Instr.sys (encodeNNN_fieldNNN (by decide) nnn)
  | nop w => exact decode_of_unrecognised h
  | jp nnn | call nnn | ldI nnn | jpV0 nnn =>
    simp [encode, decode, encodeNNN_family, encodeNNN_fieldNNN]
  | seImm x nn | sneImm x nn | ldImm x nn | addImm x nn | rnd x nn =>
    simp [encode, decode, encodeXNN_family, encodeXNN_fieldX, encodeXNN_fieldNN]
  | seReg x y | ldReg x y | orReg x y | andReg x y | xorReg x y | addReg x y | subReg x y | shrReg x y
  | subnReg x y | shlReg x y | sneReg x y =>
    simp [encode, decode, decodeFamily5, decodeFamily8, decodeFamily9, encodeXYN_family, encodeXYN_last,
      encodeXYN_fieldX, encodeXYN_fieldY]
  | drw x y n =>
    simp [encode, decode, encodeXYN_family, encodeXYN_fieldX, encodeXYN_fieldY, fieldN, Fin.ext_iff,
      encodeXYN_last]
  | skp x | sknp x | ldVxDT x | ldVxK x | ldDTVx x | ldSTVx x | addIVx x | ldFVx x | ldBVx x
  | storeRegs x | loadRegs x =>
    simp [encode, decode, decodeFamilyE, decodeFamilyF, encodeXOO_family, encodeXOO_fieldX,
      encodeXOO_fieldNN]

end Sys2Proof
end

section
/-!
The decoder against the opcode table (30_encoding.md R67, R68): a row that hits a word is the row the decoder
selects, but for `0NNN` under `00E0` and `00EE` and for the catch-all.
-/

namespace Sys2Proof

/-- Every instruction's word is hit by the row the instruction stands for. -/
theorem row_hits_encode (i : Instr) : Laws.MatchesTable.Statement i :=
  open Laws.MatchesTable in
  i.rec cls ret sys jp call seImm sneImm seReg ldImm addImm ldReg orReg andReg xorReg addReg subReg
    shrReg subnReg shlReg sneReg ldI jpV0 rnd drw skp sknp ldVxDT ldVxK ldDTVx ldSTVx addIVx ldFVx
    ldBVx storeRegs loadRegs nop

/-! ## What a hit says of the word's fields -/

section
variable {r : OpcodeRow} {w : Word16} {k : Nat}

theorem OpcodeRow.family_of_hits (hm : r.mask = 0xF000) (h : r.hits w = true) :
    (nibble w 3).val = r.pattern.toNat / 4096 := by
  rw [OpcodeRow.hits_family hm] at h
  rw [nibble_family]
  omega

theorem OpcodeRow.nibbles_of_hits_xyo (hm : r.mask = 0xF00F) (h : r.hits w = true) :
    (nibble w 3).val = r.pattern.toNat / 4096 ∧ (nibble w 0).val = r.pattern.toNat % 16 := by
  rw [OpcodeRow.hits_xyo hm] at h
  rw [nibble_family, nibble_last]
  omega

theorem OpcodeRow.fields_of_hits_xoo (hm : r.mask = 0xF0FF) (h : r.hits w = true) :
    (nibble w 3).val = r.pattern.toNat / 4096 ∧ fieldNN w = BitVec.ofNat 8 r.pattern.toNat := by
  rw [OpcodeRow.hits_xoo hm] at h
  rw [nibble_family, fieldNN_eq_iff, BitVec.toNat_ofNat]
  omega

/-! ## The row selected -/

theorem rowNumber_decodeFamily0 (w : Word16) : (decodeFamily0 w).rowNumber ≤ 2 := by
  unfold decodeFamily0
  split_ifs <;> simp [Instr.rowNumber]

/-- A row that hits a word is the row selected, or it is `0NNN` and the row selected is no later, or it is
the catch-all. By the format of the row. -/
theorem rowNumber_decode_of_hits (hr : opcodeTable[k]? = some r) (hw : r.hits w = true) :
    (decode w).rowNumber = k ∨ (k = 2 ∧ (decode w).rowNumber ≤ 2) ∨ k = 35 := by
  match k, hr with
  | 0, hr | 1, hr =>
    cases hr
    cases BitVec.eq_of_toNat_eq ((OpcodeRow.hits_fixed rfl w).mp hw)
    exact .inl rfl
  | 2, hr =>
    cases hr
    have h3 : w.toNat / 4096 = 0 := (nibble_family w).symm.trans (OpcodeRow.family_of_hits rfl hw)
    exact .inr (.inl ⟨rfl, decode_family0 h3 ▸ rowNumber_decodeFamily0 w⟩)
  | 3, hr | 4, hr | 5, hr | 6, hr | 8, hr | 9, hr | 20, hr | 21, hr | 22, hr | 23, hr =>
    cases hr
    simp [decode, OpcodeRow.family_of_hits rfl hw, Instr.rowNumber]
  | 7, hr | 10, hr | 11, hr | 12, hr | 13, hr | 14, hr | 15, hr | 16, hr | 17, hr | 18, hr | 19, hr =>
    cases hr
    obtain ⟨h3, h0⟩ := OpcodeRow.nibbles_of_hits_xyo rfl hw
    simp [decode, decodeFamily5, decodeFamily8, decodeFamily9, h3, h0, Instr.rowNumber]
  | 24, hr | 25, hr | 26, hr | 27, hr | 28, hr | 29, hr | 30, hr | 31, hr | 32, hr | 33, hr | 34, hr =>
    cases hr
    obtain ⟨h3, hnn⟩ := OpcodeRow.fields_of_hits_xoo rfl hw
    simp [decode, decodeFamilyE, decodeFamilyF, h3, hnn, Instr.rowNumber]
  | 35, _ => exact .inr (.inr rfl)
  | k + 36, hr => cases hr

end

/-- `00E0` and `00EE` go before `0NNN`, and every row before the catch-all (R67). -/
theorem opcodeTable_priority_lt : ∀ j < 36, ∀ r ∈ opcodeTable[j]?,
    (j < 2 → r.priority < 3) ∧ (j < 35 → r.priority < 4) := by decide

/-- Settles O53: the selected row hits, since the decoded instruction spells the word; any other row that
hits is `0NNN` under `00E0` or `00EE`, or the catch-all. -/
theorem decoderTakesTheMatchingRowOfLowestPriority :
    Obligations.DecoderTakesTheMatchingRowOfLowestPriority := by
  intro w
  obtain ⟨-, hword⟩ := decode_spells w
  obtain ⟨r, hr, hhits⟩ := row_hits_encode (decode w)
  rw [hword] at hhits
  refine ⟨r, hr, hhits, fun k r' hr' hhits' hk => ?_⟩
  have hj : (decode w).rowNumber < 36 := (List.getElem?_eq_some_iff.mp hr).1
  obtain ⟨beforeLegacy, beforeCatchAll⟩ := opcodeTable_priority_lt _ hj r hr
  rcases rowNumber_decode_of_hits hr' hhits' with h | ⟨rfl, h⟩ | rfl
  · exact absurd h.symm hk
  · cases hr'
    exact beforeLegacy (by omega)
  · cases hr'
    exact beforeCatchAll (by omega)

end Sys2Proof
end

section
/-!
The STEP of a machine that is not suspended: what it runs, and what a fetch out of bounds raises
(30_encoding.md R61, R63).
-/

namespace Sys2Proof.Machine

theorem HostAgent.issue_step (h : HostAgent) :
    h.issue .step = { started := true, script := h.script.tail } := by
  simp [HostAgent.issue]

/-- Settles O34: the two bytes at `pc` are the word a fetch reads. -/
theorem stepRunsTheDecodedInstruction : Obligations.StepRunsTheDecodedInstruction := by
  intro i s he hw hpc hi
  have hi' : s.nextInstr = i := (Prod.mk.inj (Except.ok.inj hi)).1
  rw [step_eq_exec he hw hpc, hi', State.issued_eq, he, HostAgent.issue_step]

/-- Settles O35: the lowest bad address is `pc` or, for the last address of memory, `pc + 1`. -/
theorem fetchOutOfBoundsRaises : Obligations.FetchOutOfBoundsRaises := by
  intro s he hw hpc
  have lowest : max s.pc.toNat 4096 = if 4096 ≤ s.pc.toNat then s.pc.toNat else s.pc.toNat + 1 := by
    split_ifs <;> omega
  rw [step_of_step he, stepEvent_fault (s := s.issued) hw hpc, State.issued_pc, lowest]

end Sys2Proof.Machine
end

section
/-!
Screen and flow (40_screen_and_flow.md): clear screen, the no-ops and the jump, which answer one update of
the state; return and call, which turn on the stack index; and a CALL to itself, which fills the stack.
-/

namespace Sys2Proof.Machine

variable {s : State} {a : Addr12} {n : Nat}

/-! ## One update -/

/-- Settles O1: the display that CLS writes is the blank one. -/
theorem clearScreenTurnsEveryPixelOff : Obligations.ClearScreenTurnsEveryPixelOff := fun s =>
  ⟨(s.setDisp Display.blank).next, rfl, (exec_onlyWrites (i := .cls) rfl).onlyChanges,
    Display.pixel_blank, rfl⟩

/-- Settles O6: both meanings answer `next`, whatever their operand. -/
theorem noOpsOnlyAdvancePc : Obligations.NoOpsOnlyAdvancePc := fun _ _ s =>
  ⟨⟨s.next, rfl, s.next_onlyWrites.onlyChanges, rfl⟩, ⟨s.next, rfl, s.next_onlyWrites.onlyChanges, rfl⟩⟩

/-- Settles O7: the target fits in `pc`, so nothing of it is lost. -/
theorem jumpSetsPcToTarget : Obligations.JumpSetsPcToTarget := fun nnn s =>
  ⟨s.setPc (zext16 nnn), rfl, (s.setPc_onlyWrites _).onlyChanges, zext16_toNat nnn⟩

/-! ## Return and call -/

/-- RET takes the slot below the stack index (R82). -/
theorem exec_ret_above {k : Fin 16} (h : s.sp.val = k.val + 1) :
    exec .ret s = .next (s.pop.setPc (s.slot k + 2)) := by
  have top : s.topSlot = k := Fin.ext (by rw [State.topSlot_val]; omega)
  rw [← top]
  exact execRet_nonempty (by omega)

/-- Settles O2, by the two cases of the stack index. -/
theorem returnGoesPastTheCallOrUnderflows : Obligations.ReturnGoesPastTheCallOrUnderflows := by
  refine fun s => ⟨execRet_empty, fun k hk => ?_⟩
  have ret := exec_ret_above hk
  refine ⟨_, ret, (exec_onlyWrites ret).onlyChanges, ?_, rfl⟩
  rw [State.setPc_sp, State.pop_sp_val]
  omega

/-- Settles O3, by the two cases of the stack index. -/
theorem callPushesItsAddressOrOverflows : Obligations.CallPushesItsAddressOrOverflows := by
  refine fun nnn s => ⟨execCall_full nnn, fun k hk => ?_⟩
  have room : s.sp.val < 16 := by omega
  have call : exec (.call nnn) s = .next ((s.push s.pc).setPc (zext16 nnn)) :=
    execCall_room nnn room.ne
  refine ⟨_, call, (exec_onlyWrites call).onlyChanges, fun j => ?_, ?_, zext16_toNat nnn⟩
  · rw [State.setPc_slot, s.push_slot _ room, hk]
    simp only [Fin.ext_iff]
  · rw [State.setPc_sp, s.push_sp_val _ room, hk]

/-- Settles O4: the slot that the RET reads holds what the CALL wrote there, its own address. -/
theorem callThenReturnResumesAfterTheCall : Obligations.CallThenReturnResumesAfterTheCall := by
  intro nnn s k hk
  obtain ⟨t, call, -, slots, -, -⟩ := (callPushesItsAddressOrOverflows nnn s).2 k hk
  refine ⟨t, call, fun u hu hslot => ?_⟩
  obtain ⟨w, ret, -, hsp, hpc⟩ := (returnGoesPastTheCallOrUnderflows u).2 k hu
  refine ⟨w, ret, ?_, Fin.ext (hsp.trans hk.symm)⟩
  rw [hpc, hslot, slots k, if_pos rfl]

/-! ## A CALL to itself -/

/-- The machine stands at a CALL to its own address with `n` slots in use, and no event but STEP comes. -/
structure AtSelfCall (a : Addr12) (n : Nat) (s : State) : Prop where
  /-- The host issues only STEPs (notes/assumptions/2.md: an empty script means STEP). -/
  script : s.host.script = []
  /-- No FX0A is suspended. -/
  running : s.waitKey = false
  /-- The CALL stands at `pc`. -/
  pc : s.pc = zext16 a
  /-- It can be fetched there. -/
  inBounds : a.toNat + 1 < 4096
  /-- It is a CALL to its own address. -/
  word : s.mem.wordAt a.toNat = encode (.call a)
  /-- `n` slots are in use. -/
  depth : s.sp.val = n

/-- The next STEP runs the CALL. -/
theorem AtSelfCall.step_eq (h : AtSelfCall a n s) : step s = exec (.call a) s.issued := by
  have hpc : s.pc.toNat = a.toNat := by rw [h.pc, zext16_toNat]
  have hnext : s.nextEvent = .step := by rw [State.nextEvent, h.script]; rfl
  have hinstr : s.nextInstr = .call a := by
    rw [State.nextInstr, hpc, h.word, decodeOfEncodeIsTheInstruction _ rfl]
  rw [step_eq_exec hnext h.running (hpc ▸ h.inBounds), hinstr]

/-- Below capacity the STEP uses one slot more and comes back to the CALL. -/
theorem AtSelfCall.step_room (h : AtSelfCall a n s) (hn : n < 16) :
    ∃ t, step s = .next t ∧ AtSelfCall a (n + 1) t := by
  have room : s.issued.sp.val < 16 := h.depth.trans_lt hn
  refine ⟨(s.issued.push s.pc).setPc (zext16 a), h.step_eq.trans (execCall_room a room.ne), ?_⟩
  exact {
    script := congrArg List.tail h.script
    running := h.running
    pc := rfl
    inBounds := h.inBounds
    word := h.word
    depth := (s.issued.push_sp_val s.pc room).trans (congrArg (· + 1) h.depth) }

/-- As many STEPs as there are free slots raise no error. -/
theorem AtSelfCall.runs (k : Nat) (h : AtSelfCall a n s) (hk : n + k ≤ 16) :
    ∃ t, RunsTo k s t ∧ AtSelfCall a (n + k) t := by
  induction k generalizing n s with
  | zero => exact ⟨s, .refl s, h⟩
  | succ k ih =>
    obtain ⟨t, hstep, ht⟩ := h.step_room (by omega)
    obtain ⟨u, hrun, hu⟩ := ih ht (by omega)
    exact ⟨u, .more hstep hrun, by rwa [show n + (k + 1) = n + 1 + k by omega]⟩

/-- With the stack full the STEP raises StackOverflow with the address of the CALL (R131). -/
theorem AtSelfCall.step_full (h : AtSelfCall a 16 s) : step s = .fault (.stackOverflow s.pc) :=
  h.step_eq.trans (execCall_full (s := s.issued) a h.depth)

/-- Settles O5: 16 STEPs fill the stack and leave the machine at the CALL, which then overflows. -/
theorem seventeenthNestedCallOverflows : Obligations.SeventeenthNestedCallOverflows := by
  intro a s hscript hwait hsp hpc hbound hword
  have hpc' : s.pc = zext16 a := BitVec.eq_of_toNat_eq (hpc.trans (zext16_toNat a).symm)
  have start : AtSelfCall a 0 s := ⟨hscript, hwait, hpc', hbound, hword, hsp⟩
  obtain ⟨t, hrun, full⟩ := start.runs 16 le_rfl
  have samePc : t.pc = s.pc := full.pc.trans hpc'.symm
  exact ⟨t, hrun, full.depth, samePc, samePc ▸ full.step_full⟩

end Sys2Proof.Machine
end

section
/-! The example words of the spec (40 to 48, 95_test_vectors.md). -/

namespace Sys2Proof

/-- Settles O55, by running the decoder on each of the words. -/
theorem specExampleWordsDecode : Obligations.SpecExampleWordsDecode := by
  unfold Obligations.SpecExampleWordsDecode
  decide

end Sys2Proof
end

section
/-!
The skips (41_skips.md): a meaning that answers `State.skipIf` on a test skips when what the test decides
holds.
-/

namespace Sys2Proof.Machine

variable {s : State} {i : Instr} {c : Prop} {b : Bool}

/-- The `if c: skip else: next` of R92, for a test `b` that decides the condition `c`. -/
theorem skipsWhen_of_skipIf (h : exec i s = .next (s.skipIf b)) (hb : b = true ↔ c) : SkipsWhen i c s := by
  refine ⟨s.skipIf b, h, (s.skipIf_onlyWrites b).onlyChanges, fun hc => ?_, fun hc => ?_⟩
  · rw [State.skipIf_pc, if_pos (hb.mpr hc)]
  · rw [State.skipIf_pc, if_neg (mt hb.mp hc)]

/-- Settles O9: the test of each meaning decides its condition. -/
theorem registerSkipsFollowTheirCondition : Obligations.RegisterSkipsFollowTheirCondition := fun _ _ _ _ =>
  ⟨skipsWhen_of_skipIf rfl beq_iff_eq, skipsWhen_of_skipIf rfl bne_iff_ne,
    skipsWhen_of_skipIf rfl beq_iff_eq, skipsWhen_of_skipIf rfl bne_iff_ne⟩

end Sys2Proof.Machine
end

section
/-!
The immediates (42_immediate.md): a meaning that writes one register and goes to the next instruction, and
the two that write an immediate or the sum with it.
-/

namespace Sys2Proof.Machine

variable {s : State} {i : Instr} {x : Reg} {b : Byte}

/-- The effect of an assignment to one register: what R93 and R94 share, for the byte that is written. -/
theorem assigns_of_setReg_next (h : exec i s = .next (s.setReg x b).next) :
    ∃ t, exec i s = .next t ∧ OnlyChanges [.regs, .pc] s t ∧ RegsAre x b s t ∧ t.pc = s.pc + 2 :=
  have frame : OnlyWrites [.regs, .pc] s (s.setReg x b).next :=
    (s.setReg_onlyWrites x b).trans (State.next_onlyWrites _)
  ⟨_, h, frame.onlyChanges, setReg_next_regsAre x b s, rfl⟩

/-- Settles O11: the byte assigned is the immediate. -/
theorem assignImmediateWritesOneRegister : Obligations.AssignImmediateWritesOneRegister := fun _ _ _ =>
  assigns_of_setReg_next rfl

/-- Settles O12: the byte assigned is the 8-bit sum, and no flag is written after it. -/
theorem addImmediateWrapsWithoutFlag : Obligations.AddImmediateWrapsWithoutFlag := by
  intro x nn s
  obtain ⟨t, run, frame, regs, pc⟩ := assigns_of_setReg_next (i := .addImm x nn) (s := s) rfl
  refine ⟨t, run, frame, ?_, fun r hr => by rw [regs r, if_neg hr], pc⟩
  rw [regs x, if_pos rfl, sum8_eq, BitVec.toNat_add]

end Sys2Proof.Machine
end

section
/-!
The register-to-register operations (43_alu.md): four assignments to one register, and five meanings that
write a result and then a flag. Of the five, the shifts are settled under every configuration first; the
shifts of this machine are the case of its own configuration.
-/

namespace Sys2Proof.Machine

variable {s : State} {x y z : Reg} {b : Byte} {flag : Bool} {c : Config} {o : Result}

/-- Settles O13: the byte assigned is `V[Y]`, or a bitwise operation of the two operands. -/
theorem assignAndLogicWriteOneRegister : Obligations.AssignAndLogicWriteOneRegister := fun _ _ _ =>
  ⟨assigns_of_setReg_next rfl, assigns_of_setReg_next rfl, assigns_of_setReg_next rfl,
    assigns_of_setReg_next rfl⟩

/-! ## A result and a flag -/

theorem setResultThenFlag_next_regsAndFlagAre (x : Reg) (b : Byte) (flag : Bool) (s : State) :
    RegsAndFlagAre x b flag s (s.setResultThenFlag x b flag).next :=
  s.setResultThenFlag_reg x b flag

/-- The effect of writing a result and then a flag: what R100 to R104 share (R95). -/
theorem flags_of_setResultThenFlag_next (h : o = .next (s.setResultThenFlag x b flag).next) :
    ∃ t, o = .next t ∧ OnlyChanges [.regs, .pc] s t ∧ RegsAndFlagAre x b flag s t ∧ t.pc = s.pc + 2 :=
  have frame : OnlyWrites [.regs, .pc] s (s.setResultThenFlag x b flag).next :=
    (s.setResultThenFlag_onlyWrites x b flag).trans (State.next_onlyWrites _)
  ⟨_, h, frame.onlyChanges, setResultThenFlag_next_regsAndFlagAre x b flag s, rfl⟩

/-! ## Sum and differences -/

theorem exec_addReg (x y : Reg) (s : State) : exec (.addReg x y) s =
    .next (s.setResultThenFlag x (s.reg x + s.reg y)
      (decide (255 < (s.reg x).toNat + (s.reg y).toNat))).next := by
  rw [← sum8_eq]
  rfl

theorem exec_subReg (x y : Reg) (s : State) : exec (.subReg x y) s =
    .next (s.setResultThenFlag x (s.reg x - s.reg y)
      (decide ((s.reg y).toNat ≤ (s.reg x).toNat))).next := by
  rw [← diff8_eq]
  rfl

theorem exec_subnReg (x y : Reg) (s : State) : exec (.subnReg x y) s =
    .next (s.setResultThenFlag x (s.reg y - s.reg x)
      (decide ((s.reg x).toNat ≤ (s.reg y).toNat))).next := by
  rw [← diff8_eq]
  rfl

/-- Settles O14: the result is the 8-bit sum and the flag its carry. -/
theorem addSetsSumAndCarry : Obligations.AddSetsSumAndCarry := fun x y s =>
  flags_of_setResultThenFlag_next (exec_addReg x y s)

/-- Settles O15: the result is the 8-bit difference and the flag says that nothing was borrowed. -/
theorem subtractionsSetDifferenceAndNoBorrow : Obligations.SubtractionsSetDifferenceAndNoBorrow :=
  fun x y s =>
    ⟨flags_of_setResultThenFlag_next (exec_subReg x y s),
      flags_of_setResultThenFlag_next (exec_subnReg x y s)⟩

/-! ## Shifts -/

theorem shrWith_eq (hz : shiftSourceReg c x y = z) : shrWith c x y s =
    .next (s.setResultThenFlag x (s.reg z >>> 1) ((s.reg z).getLsbD 0)).next := by
  rw [← hz, ← shiftRight1_eq]
  rfl

theorem shlWith_eq (hz : shiftSourceReg c x y = z) : shlWith c x y s =
    .next (s.setResultThenFlag x (s.reg z <<< 1) ((s.reg z).getLsbD 7)).next := by
  rw [← hz, ← shiftLeft1_eq]
  rfl

/-- Settles O17: the register shifted is the one `SHIFT_SOURCE` names, which with `X = Y` is the one that
this machine shifts. -/
theorem shiftsFollowTheConfiguredSource : Obligations.ShiftsFollowTheConfiguredSource := by
  intro c x y z s h
  have hz : shiftSourceReg c x y = z := shiftSourceReg_eq h
  refine ⟨flags_of_setResultThenFlag_next (shrWith_eq hz),
    flags_of_setResultThenFlag_next (shlWith_eq hz), ?_⟩
  rintro rfl
  have same : shiftSourceReg c x x = shiftSourceReg config x x := by
    rw [shiftSourceReg_self, shiftSourceReg_self]
  exact ⟨(shrWith_eq same).trans (shrWith_eq rfl).symm, (shlWith_eq same).trans (shlWith_eq rfl).symm⟩

/-- Settles O16: the shifts of this machine are those of its configuration, whose source is `V[Y]` (D5). -/
theorem shiftsMoveOneBitAndKeepTheLostOne : Obligations.ShiftsMoveOneBitAndKeepTheLostOne := by
  intro x y s
  obtain ⟨shr, shl, -⟩ := shiftsFollowTheConfiguredSource config x y y s (.inl ⟨rfl, rfl⟩)
  exact ⟨shr, shl⟩

end Sys2Proof.Machine
end

section
/-!
Address register, jump with offset, random (44_address_jump_random.md). RND is an assignment to one register
for every value of the byte; the instruction takes the drawn byte and counts the draw.
-/

namespace Sys2Proof.Machine

/-- Settles O18: the address fits in `I`, so nothing of it is lost. -/
theorem setAddressRegisterZeroExtends : Obligations.SetAddressRegisterZeroExtends := fun nnn s =>
  ⟨(s.setI (zext16 nnn)).next, rfl, (exec_onlyWrites (i := .ldI nnn) rfl).onlyChanges,
    zext16_toNat nnn, rfl⟩

/-- Settles O8: the largest sum, 4350, fits in `pc`, so it is stored unreduced. -/
theorem jumpWithOffsetAddsV0 : Obligations.JumpWithOffsetAddsV0 := fun nnn s =>
  ⟨s.setPc (offsetTarget nnn (s.reg 0)), rfl, (s.setPc_onlyWrites _).onlyChanges,
    offsetTarget_toNat nnn (s.reg 0)⟩

/-! ## Random -/

theorem randomAssign_onlyWrites (r : Byte) (x : Reg) (nn : Byte) (s : State) :
    OnlyWrites [.regs, .pc] s (randomAssign r x nn s) :=
  (s.setReg_onlyWrites x (r &&& nn)).trans (State.next_onlyWrites _)

theorem randomAssign_regsAre (r : Byte) (x : Reg) (nn : Byte) (s : State) :
    RegsAre x (r &&& nn) s (randomAssign r x nn s) :=
  setReg_next_regsAre x (r &&& nn) s

/-- The destination holds no bit outside the mask. -/
theorem randomAssign_reg_and_not_mask (r : Byte) (x : Reg) (nn : Byte) (s : State) :
    (randomAssign r x nn s).reg x &&& ~~~nn = 0 := by
  rw [randomAssign_regsAre r x nn s x, if_pos rfl, BitVec.and_assoc, BitVec.and_not_self]
  exact BitVec.and_zero

/-- Settles O22: taking the draw writes the draw counter only, so it leaves the effect of the assignment. -/
theorem randomAssignMasksTheRandomByte : Obligations.RandomAssignMasksTheRandomByte := by
  intro x nn s
  refine ⟨⟨(randomAssign (Config.freeRandomByte s.draws) x nn s).takeDraw, rfl,
      (exec_onlyWrites (i := .rnd x nn) rfl).onlyChanges, randomAssign_regsAre _ x nn s,
      randomAssign_reg_and_not_mask _ x nn s, rfl, rfl⟩, fun r => ?_⟩
  exact ⟨(randomAssign_onlyWrites r x nn s).onlyChanges, randomAssign_regsAre r x nn s, rfl⟩

end Sys2Proof.Machine
end

section
/-!
Draw sprite (45_draw.md): what the state after a draw in bounds holds, for any start column and row, and
the draw repeated at the same coordinates.
-/

namespace Sys2Proof.Machine

variable {s : State} {x y : Reg} {n : Fin 16} {cx cy k c : Nat} {row : Fin 32} {col : Fin 64}

/-- The state after the `n` bytes at `I` are drawn at a start column and row. -/
def State.drawnAt (s : State) (cx cy : Nat) (n : Fin 16) : State :=
  let cv := s.canvasAfter cx cy (s.mem.readBytes s.base n.val)
  ((s.setDisp cv.disp).setReg VF (flagByte cv.hit)).next

theorem exec_drw_in (hcx : startCol (s.reg x) = cx) (hcy : startRow (s.reg y) = cy)
    (h : n.val = 0 ∨ s.base + n.val - 1 < 4096) : exec (.drw x y n) s = .next (s.drawnAt cx cy n) := by
  subst hcx hcy
  exact execDrw_in x y (by omega) _ rfl

theorem exec_drw_out (h0 : 0 < n.val) (h : 4096 ≤ s.base + n.val - 1) :
    exec (.drw x y n) s = .fault (.outOfBoundsAccess (max s.base 4096)) :=
  withBounds_out (by omega) (by omega) _

/-! ## The pixels -/

theorem isSpritePixel_iff :
    IsSpritePixel cx cy k c row col ↔ row = wrapRow (cy + k) ∧ col = wrapCol (cx + c) := by
  rw [IsSpritePixel, Fin.ext_iff, Fin.ext_iff, wrapRow_val, wrapCol_val]

theorem State.drawnAt_pixel_at (hk : k < n.val) (hc : c < 8) (h : IsSpritePixel cx cy k c row col) :
    (s.drawnAt cx cy n).pixel row col =
      (s.pixel row col ^^ (s.mem.read (s.base + k)).getLsbD (7 - c)) := by
  obtain ⟨rfl, rfl⟩ := isSpritePixel_iff.mp h
  exact s.canvasAfter_at cx cy s.base (by omega) hk hc

theorem State.drawnAt_pixel_off (h : ∀ k c, k < n.val → c < 8 → ¬ IsSpritePixel cx cy k c row col) :
    (s.drawnAt cx cy n).pixel row col = s.pixel row col :=
  s.canvasAfter_off cx cy s.base (by omega) row col fun k c hk hc he =>
    h k c hk hc (isSpritePixel_iff.mpr he)

/-- Drawing the same bytes at the same place again undoes the first draw, pixel by pixel. -/
theorem State.drawnAt_drawnAt_pixel (s : State) (cx cy : Nat) (n : Fin 16) (row : Fin 32)
    (col : Fin 64) : ((s.drawnAt cx cy n).drawnAt cx cy n).pixel row col = s.pixel row col := by
  by_cases h : ∃ k c, k < n.val ∧ c < 8 ∧ IsSpritePixel cx cy k c row col
  · obtain ⟨k, c, hk, hc, hp⟩ := h
    have sameByte : (s.drawnAt cx cy n).mem.read ((s.drawnAt cx cy n).base + k) =
        s.mem.read (s.base + k) := rfl
    rw [drawnAt_pixel_at hk hc hp, drawnAt_pixel_at hk hc hp, sameByte, Bool.xor_assoc, Bool.xor_self,
      Bool.xor_false]
  · have off : ∀ k c, k < n.val → c < 8 → ¬ IsSpritePixel cx cy k c row col :=
      fun k c hk hc hp => h ⟨k, c, hk, hc, hp⟩
    rw [drawnAt_pixel_off off, drawnAt_pixel_off off]

/-! ## The registers and the frame -/

theorem flagByte_eq_one {b : Bool} : flagByte b = 1 ↔ b = true := by cases b <;> decide

theorem flagByte_zero_or_one (b : Bool) : flagByte b = 0 ∨ flagByte b = 1 := by cases b <;> decide

theorem State.drawnAt_regsAre (s : State) (cx cy : Nat) (n : Fin 16) :
    RegsAre VF (flagByte (s.canvasAfter cx cy (s.mem.readBytes s.base n.val)).hit) s
      (s.drawnAt cx cy n) :=
  setReg_next_regsAre VF _ (s.setDisp _)

theorem State.drawnAt_reg_of_ne {r : Reg} (h : r ≠ VF) : (s.drawnAt cx cy n).reg r = s.reg r := by
  rw [s.drawnAt_regsAre cx cy n, if_neg h]

theorem State.drawnAt_VF (s : State) (cx cy : Nat) (n : Fin 16) : (s.drawnAt cx cy n).reg VF =
    flagByte (s.canvasAfter cx cy (s.mem.readBytes s.base n.val)).hit := by
  rw [s.drawnAt_regsAre cx cy n, if_pos rfl]

/-- A draw reports a collision exactly when a pixel that was on has a sprite bit (R110 (b)). -/
theorem State.drawnAt_VF_eq_one : (s.drawnAt cx cy n).reg VF = 1 ↔
    ∃ k c row col, k < n.val ∧ c < 8 ∧ IsSpritePixel cx cy k c row col ∧ s.pixel row col = true ∧
      (s.mem.read (s.base + k)).getLsbD (7 - c) = true := by
  rw [s.drawnAt_VF, flagByte_eq_one, s.canvasAfter_hit cx cy s.base (by omega)]
  constructor
  · rintro ⟨k, c, hk, hc, hb, hp⟩
    exact ⟨k, c, _, _, hk, hc, isSpritePixel_iff.mpr ⟨rfl, rfl⟩, hp, hb⟩
  · rintro ⟨k, c, row, col, hk, hc, hrc, hp, hb⟩
    obtain ⟨rfl, rfl⟩ := isSpritePixel_iff.mp hrc
    exact ⟨k, c, hk, hc, hb, hp⟩

theorem State.drawnAt_onlyWrites (s : State) (cx cy : Nat) (n : Fin 16) :
    OnlyWrites [.display, .regs, .pc] s (s.drawnAt cx cy n) :=
  ((s.setDisp_onlyWrites _).trans (State.setReg_onlyWrites _ _ _)).trans (State.next_onlyWrites _)

/-- Settles O29: in bounds the answer is `drawnAt`, out of bounds the check comes first. -/
theorem drawXorsTheWrappedSprite : Obligations.DrawXorsTheWrappedSprite := by
  intro x y n s cx cy hcx hcy
  refine ⟨fun h => ?_, exec_drw_out⟩
  exact ⟨s.drawnAt cx cy n, exec_drw_in hcx.symm hcy.symm h, (s.drawnAt_onlyWrites cx cy n).onlyChanges,
    rfl, fun _ _ _ _ => State.drawnAt_pixel_at, fun _ _ => State.drawnAt_pixel_off,
    fun _ => State.drawnAt_reg_of_ne, s.drawnAt_VF cx cy n ▸ flagByte_zero_or_one _,
    State.drawnAt_VF_eq_one⟩

/-! ## Two identical draws -/

/-- A byte that is not 0 has a 1 bit among the eight that a sprite row draws. -/
theorem ne_zero_iff_exists_bit {b : Byte} : b ≠ 0 ↔ ∃ c < 8, b.getLsbD (7 - c) = true := by
  constructor
  · intro hb
    by_contra allOff
    refine hb (BitVec.eq_of_getLsbD_eq fun i hi => ?_)
    have off : ¬ b.getLsbD (7 - (7 - i)) = true := fun h => allOff ⟨7 - i, by omega, h⟩
    rw [show 7 - (7 - i) = i by omega] at off
    simpa using off
  · rintro ⟨c, -, h⟩ rfl
    simp at h

/-- The first draw leaves the coordinates: it writes VF only, and with VF an operand they are given. -/
theorem State.drawnAt_coordinates
    (h : (x ≠ VF ∧ y ≠ VF) ∨ (((s.drawnAt cx cy n).reg x).toNat % 64 = (s.reg x).toNat % 64 ∧
      ((s.drawnAt cx cy n).reg y).toNat % 32 = (s.reg y).toNat % 32)) :
    startCol ((s.drawnAt cx cy n).reg x) = startCol (s.reg x) ∧
      startRow ((s.drawnAt cx cy n).reg y) = startRow (s.reg y) := by
  rcases h with ⟨hx, hy⟩ | h
  · rw [drawnAt_reg_of_ne hx, drawnAt_reg_of_ne hy]
    exact ⟨rfl, rfl⟩
  · exact h

/-- On a blank display the first draw turns on exactly the sprite's 1 bits, so the second meets one exactly
when the sprite has one. -/
theorem State.drawnAt_drawnAt_VF_of_blank (blank : ∀ row col, s.pixel row col = false) :
    ((s.drawnAt cx cy n).drawnAt cx cy n).reg VF = 1 ↔
      ∃ k, k < n.val ∧ s.mem.read (s.base + k) ≠ 0 := by
  rw [drawnAt_VF_eq_one]
  constructor
  · rintro ⟨k, c, _, _, hk, hc, -, -, hb⟩
    exact ⟨k, hk, ne_zero_iff_exists_bit.mpr ⟨c, hc, hb⟩⟩
  · rintro ⟨k, hk, hb⟩
    obtain ⟨c, hc, hbit⟩ := ne_zero_iff_exists_bit.mp hb
    have hp : IsSpritePixel cx cy k c (wrapRow (cy + k)) (wrapCol (cx + c)) :=
      isSpritePixel_iff.mpr ⟨rfl, rfl⟩
    refine ⟨k, c, _, _, hk, hc, hp, ?_, hbit⟩
    rw [drawnAt_pixel_at hk hc hp, blank, hbit, Bool.false_xor]

/-- Settles O30: the first draw keeps `I`, the sprite and the coordinates, so the second is the same draw of
the same bytes. -/
theorem drawTwiceRestoresTheDisplay : Obligations.DrawTwiceRestoresTheDisplay := by
  intro x y n s h
  refine ⟨_, exec_drw_in rfl rfl h, fun operands => ?_⟩
  obtain ⟨hcx, hcy⟩ := State.drawnAt_coordinates operands
  exact ⟨_, exec_drw_in hcx hcy h, State.drawnAt_drawnAt_pixel s _ _ n,
    State.drawnAt_drawnAt_VF_of_blank⟩

end Sys2Proof.Machine
end

section
/-!
The keypad (46_keypad.md): the key skips, wait for key and the polling STEP, by the smallest pressed key;
and the equivalence of R115, that a machine which forgets the wait flag runs the FX0A again where this one
polls, and otherwise does the same.
-/

namespace Sys2Proof.Machine

variable {s t : State} {o : Result} {k : KeyIndex}

/-! ## Key skips -/

theorem keyIndex_eq {v : Byte} (h : k.val = v.toNat % 16) : keyIndex v = k := Fin.ext h.symm

/-- Settles O10: both meanings test the named key, SKNP for the opposite answer. -/
theorem keySkipsTestTheLowNibbleKey : Obligations.KeySkipsTestTheLowNibbleKey := by
  intro x k s hk
  obtain rfl := keyIndex_eq hk
  exact ⟨skipsWhen_of_skipIf rfl Iff.rfl, skipsWhen_of_skipIf rfl (.of_eq (Bool.not_eq_true' _))⟩

/-! ## Wait for key and poll, by the smallest pressed key -/

theorem State.exists_lowestPressed_or_none (s : State) :
    (∃ k, IsLowestPressed k s) ∨ ∀ k : KeyIndex, s.keyDown k = false := by
  obtain ⟨k, -, hk, hlow⟩ | ⟨-, hnone⟩ := s.lowestPressed_cases
  · exact .inl ⟨k, hk, hlow⟩
  · exact .inr hnone

theorem IsLowestPressed.lowestPressed_eq (h : IsLowestPressed k s) : s.lowestPressed = some k := by
  obtain ⟨hk, hlow⟩ := h
  obtain ⟨j, e, hj, hlow'⟩ | ⟨-, hnone⟩ := s.lowestPressed_cases
  · have hjk : ¬ j < k := fun hlt => by simp [hlow j hlt] at hj
    have hkj : ¬ k < j := fun hlt => by simp [hlow' k hlt] at hk
    rw [e, le_antisymm (not_lt.mp hkj) (not_lt.mp hjk)]
  · simp [hnone k] at hk

theorem State.lowestPressed_eq_none (h : ∀ k : KeyIndex, s.keyDown k = false) :
    s.lowestPressed = none := by
  obtain ⟨j, -, hj, -⟩ | ⟨e, -⟩ := s.lowestPressed_cases
  · simp [h j] at hj
  · exact e

theorem exec_ldVxK_pressed (x : Reg) (h : IsLowestPressed k s) :
    exec (.ldVxK x) s = .next (s.setReg x (keyByte k)).next := by
  rw [exec, execLdVxK, h.lowestPressed_eq]

theorem exec_ldVxK_none (x : Reg) (h : ∀ k : KeyIndex, s.keyDown k = false) :
    exec (.ldVxK x) s = .next (s.setWait x) := by
  rw [exec, execLdVxK, State.lowestPressed_eq_none h]

theorem poll_pressed (h : IsLowestPressed k s) :
    poll s = .next ((s.setReg s.waitReg (keyByte k)).clearWait).next := by
  rw [poll, h.lowestPressed_eq]

theorem poll_none (h : ∀ k : KeyIndex, s.keyDown k = false) : poll s = .next s := by
  rw [poll, State.lowestPressed_eq_none h]

/-- Settles O31: with a key pressed an assignment of its index, with none the wait state only. -/
theorem waitForKeyResolvesOrSuspends : Obligations.WaitForKeyResolvesOrSuspends := fun x s =>
  ⟨fun _ hk => assigns_of_setReg_next (exec_ldVxK_pressed x hk),
    fun hnone => ⟨s.setWait x, exec_ldVxK_none x hnone, (s.setWait_onlyWrites x).onlyChanges, rfl, rfl⟩⟩

theorem State.clearWait_onlyWrites (s : State) : OnlyWrites [.wait] s s.clearWait := by
  intro p hp; cases p <;> simp_all [Part.kept]

theorem step_eq_poll (he : s.nextEvent = .step) (hw : s.waitKey = true) : step s = poll s.issued := by
  rw [step_of_step he, stepEvent_poll (s := s.issued) hw]

/-- Settles O32, by the two answers of the poll after the host's record has moved on. -/
theorem pollingStepIsIdempotentUntilAKey : Obligations.PollingStepIsIdempotentUntilAKey := by
  intro s he hw
  rw [step_eq_poll he hw]
  refine ⟨fun k hk => ?_, fun hnone => ?_⟩
  · have frame := ((s.issued_onlyWrites.trans (State.setReg_onlyWrites _ s.waitReg (keyByte k))).trans
      (State.clearWait_onlyWrites _)).trans (State.next_onlyWrites _)
    exact ⟨_, poll_pressed (s := s.issued) hk, (frame.mono (by simp)).onlyChanges,
      s.issued.setReg_reg s.waitReg (keyByte k), rfl, rfl, rfl⟩
  · exact ⟨s.issued, poll_none (s := s.issued) hnone, s.issued_onlyWrites.onlyChanges⟩

/-! ## Outcomes up to the wait flag -/

/-- An outcome as a machine without the wait flag sees it. -/
def upToWait : Result → Result
  | .next s => .next s.forgetWait
  | .fault f => .fault f
  | .refused r => .refused r

theorem upToWait_eq_next : upToWait o = .next t ↔ ∃ u, o = .next u ∧ u.forgetWait = t := by
  cases o <;> simp [upToWait]

theorem upToWait_eq_fault {f : Fault} : upToWait o = .fault f ↔ o = .fault f := by
  cases o <;> simp [upToWait]

theorem upToWait_eq_refused {r : Refusal} : upToWait o = .refused r ↔ o = .refused r := by
  cases o <;> simp [upToWait]

theorem upToWait_withBounds (base len : Nat) (go : Result) :
    upToWait (withBounds base len go) = withBounds base len (upToWait go) := by
  rw [withBounds, withBounds]
  cases firstOutOfBounds base len <;> rfl

/-! ## No handler reads the wait flag -/

theorem upToWait_skipIf_forgetWait (c : Bool) (s : State) :
    upToWait (.next (s.forgetWait.skipIf c)) = upToWait (.next (s.skipIf c)) := by
  cases c <;> rfl

theorem State.forgetWait_regsFrom (s : State) (r n : Nat) :
    s.forgetWait.regsFrom r n = s.regsFrom r n := by
  induction n generalizing r with
  | zero => rfl
  | succ n ih => exact congrArg (s.reg (index16 r) :: ·) (ih (r + 1))

theorem State.forgetWait_setRegsFrom (s : State) (r : Nat) (bs : List Byte) :
    s.forgetWait.setRegsFrom r bs = (s.setRegsFrom r bs).forgetWait := by
  induction bs generalizing s r with
  | nil => rfl
  | cons b bs ih => exact ih (s.setReg (index16 r) b) (r + 1)

theorem storeAtI_forgetWait (bytes : List Byte) (s : State) :
    upToWait (storeAtI bytes s.forgetWait) = upToWait (storeAtI bytes s) := by
  rw [storeAtI, storeAtI, upToWait_withBounds, upToWait_withBounds]
  rfl

theorem exec_forgetWait (i : Instr) (s : State) :
    upToWait (exec i s.forgetWait) = upToWait (exec i s) := by
  cases i with
  | ret =>
    by_cases h : s.sp.val = 0
    · rw [exec, exec, execRet_empty h, execRet_empty (s := s.forgetWait) h]
      rfl
    · rw [exec, exec, execRet_nonempty h, execRet_nonempty (s := s.forgetWait) h]
      rfl
  | call nnn =>
    by_cases h : s.sp.val = 16
    · rw [exec, exec, execCall_full nnn h, execCall_full (s := s.forgetWait) nnn h]
      rfl
    · rw [exec, exec, execCall_room nnn h, execCall_room (s := s.forgetWait) nnn h]
      rfl
  | seImm | sneImm | seReg | sneReg | skp | sknp =>
    exact upToWait_skipIf_forgetWait _ s
  | drw =>
    rw [exec, exec, execDrw, execDrw, upToWait_withBounds, upToWait_withBounds]
    rfl
  | ldVxK x =>
    obtain ⟨k, hk⟩ | hnone := s.exists_lowestPressed_or_none
    · rw [exec_ldVxK_pressed x hk, exec_ldVxK_pressed (s := s.forgetWait) x hk]
      rfl
    · rw [exec_ldVxK_none x hnone, exec_ldVxK_none (s := s.forgetWait) x hnone]
      rfl
  | ldBVx x => exact storeAtI_forgetWait (bcdDigits (s.reg x)) s
  | storeRegs x =>
    rw [exec, exec, execStoreRegs, execStoreRegs, s.forgetWait_regsFrom, storeAtI_forgetWait]
  | loadRegs x =>
    rw [exec, exec, execLoadRegs, execLoadRegs, upToWait_withBounds, upToWait_withBounds,
      s.forgetWait_setRegsFrom]
    rfl
  | _ => rfl

/-! ## The equivalence -/

/-- Polling is running the FX0A again: the same key resolves both, and without one both stay. -/
theorem exec_ldVxK_waitReg (s : State) :
    upToWait (exec (.ldVxK s.waitReg) s) = upToWait (poll s) := by
  obtain ⟨k, hk⟩ | hnone := s.exists_lowestPressed_or_none
  · rw [exec_ldVxK_pressed _ hk, poll_pressed hk]
    rfl
  · rw [exec_ldVxK_none _ hnone, poll_none hnone]
    rfl

/-- A suspended machine finds its FX0A at `pc` again; any other fetches the same word. -/
theorem stepEvent_forgetWait (h : s.waitIsAtFX0A) :
    upToWait (stepEvent s.forgetWait) = upToWait (stepEvent s) := by
  have refetch (hpc : s.pc.toNat + 1 < 4096) :
      upToWait (stepEvent s.forgetWait) = upToWait (exec s.nextInstr s) := by
    rw [stepEvent_exec (s := s.forgetWait) rfl hpc]
    exact exec_forgetWait s.nextInstr s
  cases hw : s.waitKey with
  | true =>
    obtain ⟨hpc, -, hi⟩ := h hw
    rw [refetch hpc, hi, exec_ldVxK_waitReg, stepEvent_poll hw]
  | false =>
    by_cases hpc : s.pc.toNat + 1 < 4096
    · rw [refetch hpc, stepEvent_exec hw hpc]
      rfl
    · rw [stepEvent_fault hw (not_lt.mp hpc), stepEvent_fault (s := s.forgetWait) rfl (not_lt.mp hpc)]
      rfl

theorem loadEvent_forgetWait (a : Nat) (b : Byte) (s : State) :
    upToWait (loadEvent a b s.forgetWait) = upToWait (loadEvent a b s) := by
  by_cases h : s.mayLoad a = true
  · rw [loadEvent_allowed b h, loadEvent_allowed (s := s.forgetWait) b h]
    rfl
  · rw [loadEvent_refused b h, loadEvent_refused (s := s.forgetWait) b h]

/-- One step with the flag forgotten first, by the kind of event: only a STEP reads the flag. -/
theorem step_forgetWait (hs : s.Inv) : upToWait (step s.forgetWait) = upToWait (step s) := by
  cases he : s.nextEvent with
  | step =>
    rw [step_of_step he, step_of_step (s := s.forgetWait) he]
    exact stepEvent_forgetWait hs.issued.wait
  | load a b =>
    rw [step_of_load he, step_of_load (s := s.forgetWait) he]
    exact loadEvent_forgetWait a b s.issued
  | tick =>
    rw [step_of_tick he, step_of_tick (s := s.forgetWait) he]
    rfl
  | key k b =>
    rw [step_of_key he, step_of_key (s := s.forgetWait) he]
    rfl
  | read =>
    rw [step_of_read he, step_of_read (s := s.forgetWait) he]
    rfl
  | reset =>
    rw [step_of_reset he, step_of_reset (s := s.forgetWait) he]
    rfl

/-- Settles O33: the two outcomes are the same up to the flag, whichever of the three they are. -/
theorem waitFlagIsRedundant : Obligations.WaitFlagIsRedundant := by
  intro s hs
  have same := step_forgetWait hs
  refine ⟨fun t h => ?_, fun f h => ?_, fun r h => ?_⟩
  · rw [h] at same
    exact upToWait_eq_next.mp same
  · rw [h] at same
    exact upToWait_eq_fault.mp same
  · rw [h] at same
    exact upToWait_eq_refused.mp same

end Sys2Proof.Machine
end

section
/-!
The timer instructions (47_timers.md): each copies one byte to a register or a timer and goes to the next
instruction.
-/

namespace Sys2Proof.Machine

/-- Settles O23: the three differ in the piece of state that gets the byte; `sound_on` follows the `ST` just
written. -/
theorem timerInstructionsCopyOneByte : Obligations.TimerInstructionsCopyOneByte := fun x s =>
  ⟨assigns_of_setReg_next rfl,
   ⟨(s.setDT (s.reg x)).next, rfl, (exec_onlyWrites (i := .ldDTVx x) rfl).onlyChanges, rfl, rfl⟩,
   ⟨(s.setST (s.reg x)).next, rfl, (exec_onlyWrites (i := .ldSTVx x) rfl).onlyChanges, rfl,
    State.soundOn_iff, rfl⟩⟩

end Sys2Proof.Machine
end

section
/-!
Address register and memory (48_index_memory.md): the two meanings that compute an address, and the
transfers in and out of bounds. A store at `I` is described once for any run of bytes; LD B and LD [I] are
its two uses.
-/

namespace Sys2Proof.Machine

variable {s : State} {bytes : List Byte}

/-! ## The address register -/

theorem addToAddress_toNat (i : Word16) (v : Byte) :
    (addToAddress i v).toNat = (i.toNat + v.toNat) % 65536 := BitVec.toNat_ofNat _ _

/-- Settles O19: the sum is reduced to the 16 bits of `I`. -/
theorem addToAddressRegisterWrapsAtSixteenBits : Obligations.AddToAddressRegisterWrapsAtSixteenBits :=
  fun x s => ⟨(s.setI (addToAddress s.I (s.reg x))).next, rfl,
    (exec_onlyWrites (i := .addIVx x) rfl).onlyChanges, addToAddress_toNat s.I (s.reg x), rfl⟩

/-- Under every valid configuration the glyph address of the largest `V[X]` still fits in `I` (R121). -/
theorem ldFWith_points {c : Config} (hc : c.valid = true) (x : Reg) (s : State) :
    ∃ t, ldFWith c x s = .next t ∧ OnlyChanges [.addressReg, .pc] s t ∧
      t.I.toNat = c.fontBase + c.glyphHeight * (s.reg x).toNat ∧ t.pc = s.pc + 2 :=
  ⟨(s.setI (glyphAddress c (s.reg x))).next, rfl,
    ((s.setI_onlyWrites _).trans (State.next_onlyWrites _)).onlyChanges, glyphAddress_toNat hc _, rfl⟩

/-- Settles O20: LD F of this machine is the one of its configuration, which is valid. -/
theorem glyphAddressNeverWraps : Obligations.GlyphAddressNeverWraps := fun x s =>
  ⟨ldFWith_points config_valid x s, fun _ hc => ldFWith_points hc x s⟩

/-! ## Stores at `I` -/

/-- What the state after a store at `I` holds. -/
structure StoredAtI (bytes : List Byte) (s t : State) : Prop where
  /-- Only memory and `pc` change. -/
  frame : OnlyChanges [.memory, .pc] s t
  /-- The bytes stand at `I`, `I + 1`, … in order. -/
  stored : ∀ (j : Nat) (hj : j < bytes.length), t.mem.read (s.base + j) = bytes[j]
  /-- Every other byte reads as before. -/
  elsewhere : OnlyStoresIn s.base bytes.length s t
  /-- The next instruction follows. -/
  pc : t.pc = s.pc + 2

theorem storeAtI_stored (hm : s.mem.wf = true) (h : s.base + bytes.length ≤ 4096) :
    ∃ t, storeAtI bytes s = .next t ∧ StoredAtI bytes s t := by
  have read (a : Nat) := Memory.read_writeBytes bytes hm (.inr h) a
  refine ⟨_, storeAtI_in h, ?_, fun j hj => ?_, fun a ha => ?_, rfl⟩
  · exact ((s.setMem_onlyWrites _).trans (State.next_onlyWrites _)).onlyChanges
  · rw [State.next_mem, State.setMem_mem, read, dif_pos (by omega)]
    simp only [Nat.add_sub_cancel_left]
  · rw [State.next_mem, State.setMem_mem, read, dif_neg (by omega)]

theorem storeAtI_out (h0 : bytes.length ≠ 0) (h : 4096 < s.base + bytes.length) :
    storeAtI bytes s = .fault (.outOfBoundsAccess (max s.base 4096)) := withBounds_out h0 h _

@[simp] theorem bcdDigits_length (v : Byte) : (bcdDigits v).length = 3 := rfl

/-- Settles O24: a store of the three digits. -/
theorem bcdStoresThreeDigits : Obligations.BcdStoresThreeDigits := by
  intro x s hm
  refine ⟨fun h => ?_, fun h => storeAtI_out (by simp) (by rw [bcdDigits_length]; omega)⟩
  obtain ⟨t, ht, store⟩ :=
    storeAtI_stored (bytes := bcdDigits (s.reg x)) hm (by rw [bcdDigits_length]; omega)
  have := (s.reg x).isLt
  have digit {j n : Nat} (hj : j < 3) (hn : n < 256) (e : (bcdDigits (s.reg x))[j] = BitVec.ofNat 8 n) :
      (t.mem.read (s.base + j)).toNat = n := by
    rw [store.stored j hj, e, BitVec.toNat_ofNat, Nat.mod_eq_of_lt hn]
  exact ⟨t, ht, store.frame, digit (j := 0) (by decide) (by omega) rfl,
    digit (j := 1) (by decide) (by omega) rfl, digit (j := 2) (by decide) (by omega) rfl,
    store.elsewhere, store.pc⟩

/-- Settles O25: a store of the registers read from `V[0]` up. -/
theorem storeRegistersWritesThemInOrder : Obligations.StoreRegistersWritesThemInOrder := by
  intro x s hm
  have length : (s.regsFrom 0 (regCount x)).length = x.val + 1 := s.regsFrom_length 0 _
  refine ⟨fun h => ?_, fun h => storeAtI_out (by omega) (by omega)⟩
  obtain ⟨t, ht, store⟩ := storeAtI_stored (bytes := s.regsFrom 0 (regCount x)) hm (by omega)
  exact ⟨t, ht, store.frame, fun r hr => read_of_exec_storeRegs hm ht hr, length ▸ store.elsewhere,
    store.pc⟩

/-! ## Loads of registers -/

/-- Settles O26: the registers up to `V[X]` are the ones loaded, and no register above it changes. -/
theorem loadRegistersReadsThemInOrder : Obligations.LoadRegistersReadsThemInOrder := by
  refine fun x s => ⟨fun h => ?_, fun h => withBounds_out (len := x.val + 1) (by omega) (by omega) _⟩
  have load := exec_loadRegs_in h
  refine ⟨_, load, (exec_onlyWrites load).onlyChanges, fun r => ?_, by simp⟩
  split
  · exact reg_of_exec_loadRegs load ‹_›
  · by_contra hne
    exact absurd (le_of_execLoadRegs load hne) ‹_›

end Sys2Proof.Machine
end

section
/-!
Errors (60_exceptions.md R130 to R139): which instruction raises which error, read off the meanings that
branch. The condition reads `sp`, `pc` and `I` only, so no timer and no key cures it.
-/

namespace Sys2Proof

/-- The instruction raises the error `f` in the state `s` (60_exceptions.md R131 to R133). -/
def Instr.Raises (s : Machine.State) (f : Machine.Fault) : Instr → Prop
  | .call _ => s.sp.val = 16 ∧ f = .stackOverflow s.pc
  | .ret => s.sp.val = 0 ∧ f = .stackUnderflow s.pc
  | .drw _ _ n => 0 < n.val ∧ 4096 ≤ s.base + n.val - 1 ∧ f = .outOfBoundsAccess (max s.base 4096)
  | .ldBVx _ => 4096 ≤ s.base + 2 ∧ f = .outOfBoundsAccess (max s.base 4096)
  | .storeRegs x | .loadRegs x => 4096 ≤ s.base + x.val ∧ f = .outOfBoundsAccess (max s.base 4096)
  | _ => False

end Sys2Proof

namespace Sys2Proof.Machine

variable {s t : State} {f : Fault} {i : Instr}

/-! ## The branching meanings, when they raise -/

theorem execRet_fault_iff : execRet s = .fault f ↔ s.sp.val = 0 ∧ f = .stackUnderflow s.pc := by
  by_cases h : s.sp.val = 0
  · simp [execRet_empty h, h, eq_comm]
  · simp [execRet_nonempty h, h]

theorem execCall_fault_iff (nnn : Addr12) :
    execCall nnn s = .fault f ↔ s.sp.val = 16 ∧ f = .stackOverflow s.pc := by
  by_cases h : s.sp.val = 16
  · simp [execCall_full nnn h, h, eq_comm]
  · simp [execCall_room nnn h, h]

theorem execDrw_fault_iff (x y : Reg) (n : Fin 16) : execDrw x y n s = .fault f ↔
    0 < n.val ∧ 4096 ≤ s.base + n.val - 1 ∧ f = .outOfBoundsAccess (max s.base 4096) := by
  by_cases h : n.val = 0
  · simp [execDrw_in x y (.inl h) _ rfl, h]
  · rw [execDrw, withBounds_fault_iff h, ← and_assoc]
    exact and_congr_left' (by omega)

theorem storeAtI_fault_iff {bytes : List Byte} {k : Nat} (h : bytes.length = k + 1) :
    storeAtI bytes s = .fault f ↔ 4096 ≤ s.base + k ∧ f = .outOfBoundsAccess (max s.base 4096) := by
  rw [storeAtI, withBounds_fault_iff (by omega), h]
  exact and_congr_left' (by omega)

theorem execLoadRegs_fault_iff (x : Reg) : execLoadRegs x s = .fault f ↔
    4096 ≤ s.base + x.val ∧ f = .outOfBoundsAccess (max s.base 4096) := by
  rw [execLoadRegs, regCount, withBounds_fault_iff (by omega)]
  exact and_congr_left' (by omega)

theorem execLdVxK_answers (x : Reg) (s : State) : ∃ t, execLdVxK x s = .next t := by
  obtain ⟨k, -, -, e⟩ | ⟨-, e⟩ := execLdVxK_cases x s
  · exact ⟨_, e⟩
  · exact ⟨_, e⟩

theorem poll_answers (s : State) : ∃ t, poll s = .next t := by
  obtain ⟨k, -, -, e⟩ | ⟨-, e⟩ := poll_cases s
  · exact ⟨_, e⟩
  · exact ⟨_, e⟩

/-! ## The instructions -/

theorem exec_fault_iff : exec i s = .fault f ↔ i.Raises s f := by
  cases i with
  | ret => exact execRet_fault_iff
  | call nnn => exact execCall_fault_iff nnn
  | drw x y n => exact execDrw_fault_iff x y n
  | ldBVx x => exact storeAtI_fault_iff rfl
  | storeRegs x => exact storeAtI_fault_iff (s.regsFrom_length 0 _)
  | loadRegs x => exact execLoadRegs_fault_iff x
  | ldVxK x =>
    obtain ⟨t, e⟩ := execLdVxK_answers x s
    exact iff_of_false (fun h => nomatch e.symm.trans h) id
  | _ => exact iff_of_false nofun id

theorem raises_iff : i.Raises s f ↔
    (∃ nnn, i = .call nnn ∧ s.sp.val = 16 ∧ f = .stackOverflow s.pc) ∨
    (i = .ret ∧ s.sp.val = 0 ∧ f = .stackUnderflow s.pc) ∨
    (∃ x y n, i = .drw x y n ∧ 0 < n.val ∧ 4096 ≤ s.base + n.val - 1 ∧
      f = .outOfBoundsAccess (max s.base 4096)) ∨
    (∃ x, i = .ldBVx x ∧ 4096 ≤ s.base + 2 ∧ f = .outOfBoundsAccess (max s.base 4096)) ∨
    (∃ x, (i = .storeRegs x ∨ i = .loadRegs x) ∧ 4096 ≤ s.base + x.val ∧
      f = .outOfBoundsAccess (max s.base 4096)) := by
  cases i <;> simp [Instr.Raises]

/-- The conditions read `pc`, `I` and `sp` only. -/
theorem raises_congr (hpc : t.pc = s.pc) (hI : t.I = s.I) (hsp : t.sp = s.sp) :
    i.Raises t f ↔ i.Raises s f := by
  cases i <;> simp [Instr.Raises, State.base, hpc, hI, hsp]

theorem exec_ne_refused (i : Instr) (s : State) (r : Refusal) : exec i s ≠ .refused r := by
  cases i with
  | ret =>
    rw [exec, execRet]
    split <;> nofun
  | call nnn =>
    rw [exec, execCall]
    split <;> nofun
  | drw | ldBVx | storeRegs | loadRegs => exact withBounds_ne_refused _ _ _ r
  | ldVxK x =>
    obtain ⟨t, e⟩ := execLdVxK_answers x s
    exact fun h => nomatch e.symm.trans h
  | _ => nofun

/-- Settles O37: the errors of each instruction, put together as the five cases. -/
theorem instructionsRaiseExactlyTheseErrors : Obligations.InstructionsRaiseExactlyTheseErrors :=
  fun i s => ⟨fun _ => exec_fault_iff.trans raises_iff, exec_ne_refused i s⟩

/-! ## The STEP -/

/-- A STEP that raises is not suspended, and its fetch or its instruction raised. -/
theorem stepEvent_fault_iff : stepEvent s = .fault f ↔ s.waitKey = false ∧
    if s.pc.toNat + 1 < 4096 then s.nextInstr.Raises s f
    else f = .outOfBoundsAccess (max s.pc.toNat 4096) := by
  cases hw : s.waitKey with
  | true =>
    obtain ⟨t, e⟩ := poll_answers s
    simp [stepEvent_poll hw, e]
  | false =>
    split
    · rw [stepEvent_exec hw ‹_›, exec_fault_iff]
      simp [State.nextInstr]
    · simp [stepEvent_fault hw (not_lt.mp ‹_›), eq_comm]

/-- Only memory, `pc`, `I`, `sp` and the wait flag matter to a STEP that raises. -/
theorem stepEvent_fault_of_kept {l : List Part} (h : stepEvent s = .fault f) (ht : OnlyWrites l s t)
    (hl : ∀ p ∈ [Part.memory, .pc, .addressReg, .stackIndex, .wait], p ∉ l) : stepEvent t = .fault f := by
  have hmem : t.mem = s.mem := ht .memory (hl _ (by simp))
  have hpc : t.pc = s.pc := ht .pc (hl _ (by simp))
  have hI : t.I = s.I := ht .addressReg (hl _ (by simp))
  have hsp : t.sp = s.sp := ht .stackIndex (hl _ (by simp))
  obtain ⟨hwait, -⟩ : t.waitKey = s.waitKey ∧ t.waitReg = s.waitReg := ht .wait (hl _ (by simp))
  have hinstr : t.nextInstr = s.nextInstr := by rw [State.nextInstr, hmem, hpc, State.nextInstr]
  rw [stepEvent_fault_iff] at h ⊢
  rwa [hwait, hpc, hinstr, raises_congr hpc hI hsp]

/-- Settles O38: neither event writes anything that a STEP which raises depends on. -/
theorem errorsAreNotCuredByTimersOrKeys : Obligations.ErrorsAreNotCuredByTimersOrKeys := fun s _ k b h =>
  ⟨stepEvent_fault_of_kept h (tickEvent_onlyWrites s) (by simp),
    stepEvent_fault_of_kept h (keyEvent_onlyWrites k b s) (by simp)⟩

end Sys2Proof.Machine
end

section
/-!
The host's TICK and KEY (60_exceptions.md R142 to R146): one event each, and a run of TICKs.
-/

namespace Sys2Proof.Machine

/-! ## TICK -/

theorem countDown_toNat (b : Byte) : (countDown b).toNat = b.toNat - 1 := by
  unfold countDown
  split <;> bv_omega

/-- What an issued TICK leaves in the timers. -/
theorem tickEvent_issued_timers (s : State) : (tickEvent s.issued).DT.toNat = s.DT.toNat - 1 ∧
    (tickEvent s.issued).ST.toNat = s.ST.toNat - 1 := ⟨countDown_toNat s.DT, countDown_toNat s.ST⟩

theorem tickEvent_issued_onlyWrites (s : State) :
    OnlyWrites [.delayTimer, .soundTimer, .host] s (tickEvent s.issued) :=
  (s.issued_onlyWrites.trans (tickEvent_onlyWrites _)).mono (by simp)

/-- Settles O41: both cases of a timer are the difference cut off at 0. -/
theorem tickDecrementsNonzeroTimers : Obligations.TickDecrementsNonzeroTimers := by
  intro s he
  obtain ⟨hDT, hST⟩ := tickEvent_issued_timers s
  exact ⟨tickEvent s.issued, step_of_tick he, (tickEvent_issued_onlyWrites s).onlyChanges,
    by omega, by omega, by omega, by omega⟩

/-- `n` TICKs lead to a state in which only the timers and the host's record have been written. -/
theorem runsTo_ticks (n : Nat) (rest : List HostEvent) (s : State)
    (h : s.host.script = List.replicate n .tick ++ rest) :
    ∃ t, RunsTo n s t ∧ t.DT.toNat = s.DT.toNat - n ∧ t.ST.toNat = s.ST.toNat - n ∧
      t.host.script = rest ∧ OnlyWrites [.delayTimer, .soundTimer, .host] s t := by
  induction n generalizing s with
  | zero => exact ⟨s, .refl s, rfl, rfl, h, fun p _ => p.kept_refl s⟩
  | succ n ih =>
    have he : s.nextEvent = .tick := by rw [State.nextEvent, h]; rfl
    have htail : (tickEvent s.issued).host.script = List.replicate n .tick ++ rest := congrArg List.tail h
    obtain ⟨hDT, hST⟩ := tickEvent_issued_timers s
    obtain ⟨t, run, tDT, tST, script, frame⟩ := ih _ htail
    exact ⟨t, .more (step_of_tick he) run, by omega, by omega, script,
      ((tickEvent_issued_onlyWrites s).trans frame).mono (by simp)⟩

/-- Settles O42: the strict frame of the run is a frame. -/
theorem timersCountDownToZeroAndStay : Obligations.TimersCountDownToZeroAndStay := by
  intro n rest s h
  obtain ⟨t, run, tDT, tST, script, frame⟩ := runsTo_ticks n rest s h
  exact ⟨t, run, tDT, tST, script, frame.onlyChanges⟩

/-! ## KEY -/

/-- Settles O43: the event is one write of the keypad. -/
theorem keyEventChangesOneKey : Obligations.KeyEventChangesOneKey := fun k b s he =>
  ⟨keyEvent k b s.issued, step_of_key he,
    ((s.issued_onlyWrites.trans (keyEvent_onlyWrites k b _)).mono (by simp)).onlyChanges,
    s.issued.setKey_keyDown k b⟩

end Sys2Proof.Machine
end

section
/-!
The end of a run (70_reset_and_hazards.md R163): at a jump to itself a STEP writes `pc` with the value it
has, and what makes it the end is memory, `pc` and the wait flag.
-/

namespace Sys2Proof.Machine

variable {e : Addr12} {s t : State}

/-- A STEP at the end runs the jump to itself, which leaves everything. -/
theorem FinishedAt.stepEvent_eq (h : FinishedAt e s) : stepEvent s = .next s := by
  obtain ⟨hpc, hw, hfetch, hword⟩ := h
  have hjump : s.setPc (zext16 e) = s := by rw [← hpc]; rfl
  rw [stepEvent_exec hw (State.canFetch_iff.mp hfetch), hword, decodeOfEncodeIsTheInstruction _ rfl, exec,
    execJp, hjump]

theorem FinishedAt.of_kept (h : FinishedAt e s) {l : List Part} (ht : OnlyWrites l s t)
    (hl : ∀ p ∈ [Part.memory, .pc, .wait], p ∉ l) : FinishedAt e t := by
  have hmem : t.mem = s.mem := ht .memory (hl _ (by simp))
  have hpc : t.pc = s.pc := ht .pc (hl _ (by simp))
  obtain ⟨hwait, -⟩ : t.waitKey = s.waitKey ∧ t.waitReg = s.waitReg := ht .wait (hl _ (by simp))
  rwa [FinishedAt, State.canFetch, hmem, hpc, hwait]

/-- Settles O50: after the host's record has moved on the program has still finished, a STEP leaves that
state, and TICK and KEY write neither memory nor `pc` nor the wait flag. -/
theorem finishedProgramsStayFinished : Obligations.FinishedProgramsStayFinished := by
  intro e s h
  have hi : FinishedAt e s.issued := h.of_kept s.issued_onlyWrites (by simp)
  refine ⟨fun he => ⟨s.issued, (step_of_step he).trans hi.stepEvent_eq, s.issued_onlyWrites.onlyChanges⟩,
    fun t hreset hload ht => ?_⟩
  obtain ⟨-, ht⟩ | ⟨-, rfl⟩ | ⟨k, b, -, rfl⟩ | ⟨a, b, he, -⟩ | ⟨-, rfl⟩ | ⟨he, -⟩ := step_next ht
  · obtain rfl := Host.Outcome.next.inj (hi.stepEvent_eq.symm.trans ht)
    exact hi
  · exact hi.of_kept (tickEvent_onlyWrites _) (by simp)
  · exact hi.of_kept (keyEvent_onlyWrites k b _) (by simp)
  · exact absurd he (hload a b)
  · exact hi
  · exact absurd he hreset

end Sys2Proof.Machine
end
